-- ==== Sys2Proof/Word.lean ====
section
/-! DEFINITION. The word types of CM-CORE: the byte of the instruction stream and the machine word of the register
file and the data memory (spec/00_scope.md R5: a byte has 8 bits, W = 32). -/

namespace Sys2Proof

/-- One byte of the instruction stream (R5, R15). -/
abbrev Byte := BitVec 8

/-- One register or one memory word: `W = 32` bits (R5, R11, R16). -/
abbrev Word := BitVec 32

end Sys2Proof
end

