-- ==== Sys2Proof/Config.lean ====
section
/-! DEFINITION. The implementation parameters of CM-CORE (spec/00_scope.md R5). `R` and the opcode width are fixed
values; the parameters the spec marks OPEN are a record that a machine state carries, so that a statement about every
state is a statement about every value of them (92_eei_decisions.md D4). -/

namespace Sys2Proof

/-- `R`, the number of registers (R5, decision D3). -/
abbrev Config.regCount : Nat := 8

/-- `OPW`, the width of the opcode field in bits (R5). -/
abbrev Config.opcodeWidth : Nat := 7

/-- The OPEN parameters of R5. -/
structure Params where
  /-- `M`, the number of memory words. -/
  memWords : Nat
  /-- `LMAX`, the largest buffer length in bytes the decoder accepts; `none` is unbounded (decision D22). -/
  lmax : Option Nat
  /-- `EXPOSE_REGS`: the final registers are output beside the snapshot (decision D25). -/
  exposeRegs : Bool
  deriving DecidableEq, Repr

/-- The range R5 gives `M`: `1 <= M <= 2^32`. -/
abbrev Params.legal (p : Params) : Prop := 1 ≤ p.memWords ∧ p.memWords ≤ 2 ^ 32

/-- The values the spec's test vectors use (92_eei_decisions.md, open parameters). DESIGN CHOICE, log entry 1; unsafe. -/
def Params.default : Params := { memWords := 1024, lmax := none, exposeRegs := true }

end Sys2Proof
end

