-- ==== Sys2Proof/Syntax.lean ====
section
/-! DEFINITION. The instructions of CM-CORE and the plain data of its codec: mnemonics, field names, descriptor rows,
conditions, the writer, the decode latches (spec/30_encoding.md, 40_bitstream.md, 60_exceptions.md). -/

namespace Sys2Proof

/-- The four opcodes by name (R1, R52). -/
inductive Mnemonic where
  | load | read | write | popcnt
  deriving DecidableEq, Repr

/-- The operand field names of the descriptor (R52). -/
inductive FieldName where
  | destReg | const | srcAddrReg | srcReg | destAddrReg | srcMemAddr
  deriving DecidableEq, Repr

/-- One operand field of a descriptor row: its name and its width in bits (R50). -/
structure Field where
  name : FieldName
  width : Nat
  deriving DecidableEq, Repr

/-- One row of the Instruction Set Descriptor (R50). -/
structure Row where
  name : Mnemonic
  code : BitVec 7
  fields : List Field
  resv : Nat
  total : Nat
  deriving DecidableEq, Repr

/-- The instructions. An operand is a natural number with a declared width that `Instr.WellFormed` checks
(R7, R104: "a declared bit width `w` and a required invariant `0 ≤ value < 2^w`"). -/
inductive Instr where
  /-- LOAD dest_reg const (R140). -/
  | load (destReg const : Nat)
  /-- READ src_addr_reg dest_reg (R141); the source stands first. -/
  | read (srcAddrReg destReg : Nat)
  /-- WRITE dest_reg src_reg (R142). -/
  | write (destReg srcReg : Nat)
  /-- POPCNT dest_addr_reg src_mem_addr (R150). -/
  | popcnt (destAddrReg srcMemAddr : Nat)
  deriving DecidableEq, Repr

/-- An instruction record, the input of the field packer: a row, named by its mnemonic, and operand values of
unbounded size, as many as the caller gives (R104). -/
structure Record where
  name : Mnemonic
  ops : List Nat
  deriving DecidableEq, Repr

/-- The mnemonic of an instruction. -/
def Instr.mnemonic : Instr → Mnemonic
  | .load _ _ => .load
  | .read _ _ => .read
  | .write _ _ => .write
  | .popcnt _ _ => .popcnt

/-- The operand values in descriptor order (R66). -/
def Instr.operands : Instr → List Nat
  | .load d c => [d, c]
  | .read a d => [a, d]
  | .write d s => [d, s]
  | .popcnt d m => [d, m]

/-- The instruction of a row whose first and second field hold `a` and `b` (R126). -/
def Instr.ofFields : Mnemonic → Nat → Nat → Instr
  | .load, a, b => .load a b
  | .read, a, b => .read a b
  | .write, a, b => .write a b
  | .popcnt, a, b => .popcnt a b

/-- The named errors (R160, R161). `outOfData` is the reader's own and never leaves the decoder (R168);
`badOperandToken` is the spec's seventh (R169, decision D8). -/
inductive Condition where
  | unknownOpcode | arityError | operandOverflow | malformedInstruction | addressOutOfBounds | outOfData | badOperandToken
  deriving DecidableEq, Repr

/-- The numeric code R161 gives a condition (0 is "no condition"). -/
def Condition.code : Condition → Nat
  | .unknownOpcode => 1
  | .arityError => 2
  | .operandOverflow => 3
  | .malformedInstruction => 4
  | .addressOutOfBounds => 5
  | .outOfData => 6
  | .badOperandToken => 7

/-- The BitStream Writer's state (R22). -/
structure Writer where
  wbuf : List Byte
  wbits : Nat
  deriving DecidableEq, Repr

/-- The writer after reset (R28). -/
def Writer.empty : Writer := { wbuf := [], wbits := 0 }

/-- The decode latches of R19; `none` is the spec's "no value" (R28). -/
structure Latches where
  op : Option (BitVec 7)
  row : Option Mnemonic
  f0 : Option (BitVec 32)
  f1 : Option (BitVec 32)
  rsv : Option (BitVec 6)
  ibase : Option Nat
  deriving DecidableEq, Repr

/-- The latches after reset (R28). -/
def Latches.empty : Latches := { op := none, row := none, f0 := none, f1 := none, rsv := none, ibase := none }

/-- What one `decode_one` leaves (R123): the latches and the cursor it wrote, and the instruction or the condition. -/
structure Decoded where
  latches : Latches
  pc : Nat
  result : Except Condition Instr
  deriving DecidableEq

/-- One entry of the encoder's log: `(name, code, [(field_name, value), ...])` (R23, R110). -/
structure LogEntry where
  name : Mnemonic
  code : BitVec 7
  operands : List (FieldName × Nat)
  deriving DecidableEq, Repr

end Sys2Proof
end

