-- ==== Sys2Proof/WellFormed.lean ====
section
/-! DEFINITION. What the packer requires of an instruction's operands: each fits its declared field width
(spec/30_encoding.md R60, R66; 41_encoder.md R106). -/

namespace Sys2Proof

/-- Every operand fits its field, as a check that evaluates (R66, R106). -/
def Instr.wellFormed : Instr → Bool
  | .load d c => decide (d < 2 ^ 3) && decide (c < 2 ^ 24)
  | .read a d => decide (a < 2 ^ 32) && decide (d < 2 ^ 3)
  | .write d s => decide (d < 2 ^ 3) && decide (s < 2 ^ 3)
  | .popcnt d m => decide (d < 2 ^ 3) && decide (m < 2 ^ 32)

/-- Every operand fits its field. -/
abbrev Instr.WellFormed (i : Instr) : Prop := i.wellFormed = true

end Sys2Proof
end

