-- ==== Sys2Proof/Decode.lean ====
section
/-! DEFINITION. The Instruction Set Descriptor, the BitStream Writer and Reader, the decoder and the encoder of one
instruction (spec/30_encoding.md R50 to R63, 40_bitstream.md, 41_encoder.md R108, 42_decoder.md R123). -/

namespace Sys2Proof

/-! ## The descriptor -/

/-- The descriptor row of a mnemonic (R52). -/
def Mnemonic.row : Mnemonic → Row
  | .load => { name := .load, code := 10, fields := [⟨.destReg, 3⟩, ⟨.const, 24⟩], resv := 6, total := 40 }
  | .read => { name := .read, code := 54, fields := [⟨.srcAddrReg, 32⟩, ⟨.destReg, 3⟩], resv := 6, total := 48 }
  | .write => { name := .write, code := 39, fields := [⟨.destReg, 3⟩, ⟨.srcReg, 3⟩], resv := 3, total := 16 }
  | .popcnt => { name := .popcnt, code := 18, fields := [⟨.destAddrReg, 3⟩, ⟨.srcMemAddr, 32⟩], resv := 6, total := 48 }

/-- The Instruction Set Descriptor, one immutable table for both agents (R25, R50, R52). -/
def descriptor : List Row := [Mnemonic.row .load, Mnemonic.row .read, Mnemonic.row .write, Mnemonic.row .popcnt]

/-- The descriptor row an opcode selects; 124 of the 128 codes select none (R58, R61). -/
def lookupRow (code : BitVec 7) : Option Row := descriptor.find? (fun r => r.code == code)

/-- The declared width of a row's `j`-th operand field (R50); 0 where there is none. -/
def Row.width (r : Row) (j : Nat) : Nat := ((r.fields[j]?).map (fun f => f.width)).getD 0

/-- The descriptor row of an instruction. -/
def Instr.row (i : Instr) : Row := i.mnemonic.row

/-! ## Numbers and bytes -/

/-- The `n` low bytes of a number, the first the least significant (R7, R36). -/
def bytesOfNat : Nat → Nat → List Byte
  | 0, _ => []
  | n + 1, w => BitVec.ofNat 8 w :: bytesOfNat n (w / 256)

/-- A byte sequence read as one little-endian natural number, the `S` of R83 and R86. -/
def natOfBytes : List Byte → Nat
  | [] => 0
  | b :: bs => b.toNat + 256 * natOfBytes bs

/-- `len_bits(buf)` (R8). -/
def lenBits (buf : List Byte) : Nat := 8 * buf.length

/-! ## The BitStream Writer -/

/-- The body of the loop of `write`: one bit appended, a zero byte first where none is open (R81). -/
def Writer.writeBit (w : Writer) (b : Bool) : Writer :=
  let buf := if w.wbits % 8 = 0 then w.wbuf ++ [0] else w.wbuf
  { wbuf := buf.modify (w.wbits / 8) (fun x => x ||| (BitVec.ofNat 8 b.toNat <<< (w.wbits % 8)))
    wbits := w.wbits + 1 }

/-- `write(value, width)`: the low `width` bits of `value`, least significant first (R81). -/
def Writer.write (w : Writer) (value : Nat) : Nat → Writer
  | 0 => w
  | width + 1 => (w.writeBit (value.testBit 0)).write (value / 2) width

/-- `finalize()` (R84). -/
def Writer.finalize (w : Writer) : List Byte := w.wbuf

/-- A sequence of writes `(value, width)` in order (R88). -/
def Writer.writeAll (w : Writer) : List (Nat × Nat) → Writer
  | [] => w
  | (v, n) :: rest => (w.write v n).writeAll rest

/-! ## The BitStream Reader -/

/-- Stream bit `k` of a buffer: bit `k mod 8` of byte `k div 8` (R85, decision D1). -/
def streamBit (buf : List Byte) (k : Nat) : Bool := (buf.getD (k / 8) 0).getLsbD (k % 8)

/-- The loop of `read`: the value of the `width` bits at `pc`, the first the least significant (R86). -/
def bitsAt (buf : List Byte) (pc : Nat) : Nat → Nat
  | 0 => 0
  | width + 1 => (streamBit buf pc).toNat + 2 * bitsAt buf (pc + 1) width

/-- `read(width)`: the value and the cursor after it, or `OutOfData` before any bit is consumed (R86, decision D20). -/
def readBits (buf : List Byte) (pc width : Nat) : Except Condition (Nat × Nat) :=
  if pc + width ≤ lenBits buf then .ok (bitsAt buf pc width, pc + width) else .error .outOfData

/-- A sequence of reads of the given widths (R88). -/
def readAll (buf : List Byte) (pc : Nat) : List Nat → Except Condition (List Nat × Nat)
  | [] => .ok ([], pc)
  | n :: rest =>
    match readBits buf pc n with
    | .error c => .error c
    | .ok (v, pc') =>
      match readAll buf pc' rest with
      | .error c => .error c
      | .ok (vs, pc'') => .ok (v :: vs, pc'')

/-! ## The field unpacker -/

/-- The latch write `F[j] <- v` (R123); there are two operand latches (R19). -/
def Latches.setField (l : Latches) (j v : Nat) : Latches :=
  match j with
  | 0 => { l with f0 := some (BitVec.ofNat 32 v) }
  | 1 => { l with f1 := some (BitVec.ofNat 32 v) }
  | _ => l

/-- The field loop of `decode_one`: fields `j`, `j+1`, ... read in order (R123). A read past the end is
`MalformedInstruction` (R87, R124). -/
def decodeFields (buf : List Byte) : List Field → Nat → Nat → Latches → Latches × Nat × Except Condition (List Nat)
  | [], _, pc, l => (l, pc, .ok [])
  | f :: fs, j, pc, l =>
    match readBits buf pc f.width with
    | .error _ => (l, pc, .error .malformedInstruction)
    | .ok (v, pc') =>
      match decodeFields buf fs (j + 1) pc' (l.setField j v) with
      | (l', pc'', .ok vs) => (l', pc'', .ok (v :: vs))
      | (l', pc'', .error c) => (l', pc'', .error c)

/-- The last part of `decode_one`: the reserved tail is read and must be zero (R123, R134). -/
def decodeTail (buf : List Byte) (row : Row) (vs : List Nat) (pc : Nat) (l : Latches) : Decoded :=
  match readBits buf pc row.resv with
  | .error _ => { latches := l, pc := pc, result := .error .malformedInstruction }
  | .ok (t, pc') =>
    { latches := { l with rsv := some (BitVec.ofNat 6 t) }, pc := pc'
      result := if t = 0 then .ok (Instr.ofFields row.name (vs.getD 0 0) (vs.getD 1 0)) else .error .malformedInstruction }

/-- `decode_one()` at cursor `pc`, over the latches `l` an earlier instruction left (R123): the opcode, the row, the
fields in descriptor order, the tail; the reader never peeks (R58, R198). -/
def decodeOne (buf : List Byte) (pc : Nat) (l : Latches) : Decoded :=
  match readBits buf pc Config.opcodeWidth with
  | .error _ => { latches := { l with ibase := some pc }, pc := pc, result := .error .malformedInstruction }
  | .ok (op, pc') =>
    match lookupRow (BitVec.ofNat 7 op) with
    | none =>
      { latches := { l with ibase := some pc, op := some (BitVec.ofNat 7 op) }, pc := pc', result := .error .unknownOpcode }
    | some row =>
      match decodeFields buf row.fields 0 pc'
          { l with ibase := some pc, op := some (BitVec.ofNat 7 op), row := some row.name } with
      | (l', pc'', .ok vs) => decodeTail buf row vs pc'' l'
      | (l', pc'', .error c) => { latches := l', pc := pc'', result := .error c }

/-- The decoder on a byte sequence: its first instruction and the bytes after it, or the condition (R123). -/
def decode (bytes : List Byte) : Except Condition (Instr × List Byte) :=
  match decodeOne bytes 0 Latches.empty with
  | { latches := _, pc := pc, result := .ok i } => .ok (i, bytes.drop (pc / 8))
  | { latches := _, pc := _, result := .error c } => .error c

/-- The length of an instruction in bytes (R52). -/
def Instr.byteLength (i : Instr) : Nat := i.row.total / 8

/-- A whole encoded program read back as its instructions (R59); `fuel` bounds how many. -/
def decodeProgram : Nat → List Byte → Except Condition (List Instr)
  | _, [] => .ok []
  | 0, _ :: _ => .error .malformedInstruction
  | fuel + 1, b :: bs =>
    match decode (b :: bs) with
    | .error c => .error c
    | .ok (i, rest) =>
      match decodeProgram fuel rest with
      | .error c => .error c
      | .ok is => .ok (i :: is)

/-- The decoder's answer on an opcode-table word: the word's bytes in stream order, zero above `nbits` up to the longest
instruction (6 bytes). -/
def decodeTableWord (nbits w : Nat) : Option Instr :=
  match decode (bytesOfNat (max 6 ((nbits + 7) / 8)) (w % 2 ^ nbits)) with
  | .ok (i, _) => some i
  | .error _ => none

/-! ## The field packer -/

/-- The operands written in descriptor order at their declared widths (R108). -/
def packFields (w : Writer) : List Field → List Nat → Writer
  | f :: fs, v :: vs => packFields (w.write v f.width) fs vs
  | _, _ => w

/-- The packer's writes for one instruction: opcode, operands, zero tail (R108). -/
def pack (w : Writer) (row : Row) (ops : List Nat) : Writer :=
  (packFields (w.write row.code.toNat Config.opcodeWidth) row.fields ops).write 0 row.resv

/-- The bytes of one instruction on its own (R53, R108). -/
def encode (i : Instr) : List Byte := (pack Writer.empty i.row i.operands).finalize

/-- The bytes of a program: its instructions one directly after the other (R59). -/
def encodeProgram (is : List Instr) : List Byte := (is.map encode).flatten

end Sys2Proof
end

