-- ==== Sys2Proof/Machine/State.lean ====
section
/-! DEFINITION. The complete state of CM-CORE (spec/10_state.md R10) and its reset value (R28), with the reasons a step of
the model can stop. The two agents share no state: each has its own record (R10). -/

namespace Sys2Proof.Machine

/-- The data memory: the words that are not zero, by word address, addresses strictly rising (R16, R32). A word has no
byte order and no smaller part that can be addressed (R37), so a cell is a word (log entry 6). -/
abbrev Memory := List (Nat × Word)

/-- The one canonical form of a memory: addresses strictly rising, no listed word equal to what an unlisted one reads as
(zero, R28). -/
abbrev Memory.wf (m : Memory) : Prop := m.Pairwise (fun c d => c.1 < d.1) ∧ ∀ c ∈ m, c.2 ≠ 0

/-- `VSTATE` (R18). -/
inductive VState where
  | idle | run | done | fault
  deriving DecidableEq, Repr

/-- `DSTATE`, the eight states of the decode FSM; `D_FIELD` carries its counter `j` (R122). -/
inductive DState where
  | idle | fetch | resolve | field (j : Nat) | tail | exec | done | fault
  deriving DecidableEq, Repr

/-- `ESTATE`: `OPEN`, `FINAL`, `FAILED` (R24). -/
inductive EState where
  | opened | final | failed
  deriving DecidableEq, Repr

/-- The decoder/VM side of the state (R10). -/
structure VM where
  /-- `x[0..R-1]` (R11). -/
  x : Vector Word Config.regCount
  /-- `mem[0..M-1]` (R16). -/
  mem : Memory
  /-- `ibuf[0..L-1]` (R15). -/
  ibuf : List Byte
  /-- The bit cursor (R13). -/
  pc : Nat
  /-- `SNAP_START`; no value until the host supplies it (R17). -/
  snapStart : Option Nat
  /-- `SNAP_END`; no value until the host supplies it (R17). -/
  snapEnd : Option Nat
  /-- `VSTATE` (R18). -/
  vstate : VState
  /-- `FAULT_COND`; a value only in `FAULT` (R18). -/
  faultCond : Option Condition
  /-- `FAULT_BIT`; a value only in `FAULT` (R18). -/
  faultBit : Option Nat
  /-- `OP`, `ROW`, `F[0]`, `F[1]`, `RSV`, `IBASE` (R19). -/
  latches : Latches
  /-- `DSTATE` (R19, R122). -/
  dstate : DState
  deriving DecidableEq, Repr

/-- The encoder side of the state (R10). -/
structure Encoder where
  /-- `wbuf` and `wbits` (R22). -/
  writer : Writer
  /-- `log` (R23). -/
  log : List LogEntry
  /-- `ESTATE` (R24). -/
  estate : EState
  /-- `ERR_COND`; a value only in `FAILED` (R24). -/
  errCond : Option Condition
  /-- `ERR_LINE`; a value only in `FAILED` (R24). -/
  errLine : Option Nat
  deriving DecidableEq, Repr

/-- What the host may ask for (R202), with the second input R9 and R104 give the encoder. -/
inductive HostCall where
  /-- `assemble(text)` (R100). -/
  | assemble (text : List Char)
  /-- The packer driven directly with instruction records, by a user without a text front-end (R9, R104; log entry 7). -/
  | assembleRecords (records : List Record)
  /-- `run(ibuf, start, end)` (R120). -/
  | run (ibuf : List Byte) (snapStart snapEnd : Nat)
  deriving DecidableEq, Repr

/-- The whole machine: the two agents' state (R10), and two fields of the MODEL's own: the OPEN parameters of R5, which
no step changes (log entry 1), and the host's calls that have not been taken yet, oldest first (log entry 2). -/
structure State where
  params : Params
  vm : VM
  enc : Encoder
  calls : List HostCall
  deriving DecidableEq, Repr

/-- Why the model can stop with a fault. The conditions of R161 are NOT here: the spec describes taking them, so a step
that takes one has a next state (`raiseRun`, `raiseAsm`). -/
inductive Fault where
  /-- Raised by the admission of a run whose range is legal and whose buffer is longer than a finite `LMAX`. R5 calls `LMAX` the largest length
  the decoder accepts and says nothing of what it does with a longer one. Safe: the model stops (log entry 3). -/
  | bufferTooLong
  deriving DecidableEq, Repr

/-- Why the model can refuse an instruction. -/
inductive Refusal where
  /-- Raised by an arm of `exec` for an instruction without a meaning; no arm does so. Safe: the model stops. -/
  | notModelled (mnemonic : String)
  deriving DecidableEq, Repr

/-- The decoder/VM after reset (R28, R191). `ibuf` is an input of the run; before one it is held empty (log entry 5). -/
def VM.reset : VM :=
  { x := Vector.replicate Config.regCount 0, mem := [], ibuf := [], pc := 0, snapStart := none, snapEnd := none
    vstate := .idle, faultCond := none, faultBit := none, latches := Latches.empty, dstate := .idle }

/-- The encoder after reset (R28, R190). -/
def Encoder.reset : Encoder :=
  { writer := Writer.empty, log := [], estate := .opened, errCond := none, errLine := none }

/-- Power-on: both sides reset (R28, R192), the default parameters (log entry 1), no host call placed (log entry 2). -/
def State.reset : State :=
  { params := Params.default, vm := VM.reset, enc := Encoder.reset, calls := [] }

end Sys2Proof.Machine
end

