-- ==== Sys2Proof/Machine/Ops.lean ====
section
/-! DEFINITION. The named operations over the state: the memory cells, the primitives `x[i]`, `x[i] <- v`, `MemRead`,
`MemWrite` with their bounds checks (spec/00_scope.md R8), and fault entry (60_exceptions.md R173). There is no return
from a fault (R174): the one way out of a terminal state is the reset at the start of a new pass (R191). -/

namespace Sys2Proof.Machine

/-- What a memory word that is not listed reads as: the reset value of every word (R16, R28). -/
def Memory.unwritten : Word := 0

/-- The word at an address. -/
def Memory.read : Memory → Nat → Word
  | [], _ => Memory.unwritten
  | (b, w) :: m, a => if a = b then w else Memory.read m a

/-- The memory with `v` at `a`; storing the value of an unlisted word removes the entry. -/
def Memory.write : Memory → Nat → Word → Memory
  | [], a, v => if v = Memory.unwritten then [] else [(a, v)]
  | (b, w) :: m, a, v =>
    if a < b then (if v = Memory.unwritten then (b, w) :: m else (a, v) :: (b, w) :: m)
    else if a = b then (if v = Memory.unwritten then m else (a, v) :: m)
    else (b, w) :: Memory.write m a v

/-- The state with the register file replaced, and nothing else. -/
def State.setRegs (s : State) (x : Vector Word Config.regCount) : State := { s with vm := { s.vm with x := x } }

/-- The state with the data memory replaced, and nothing else. -/
def State.setMem (s : State) (m : Memory) : State := { s with vm := { s.vm with mem := m } }

/-- The state with the cursor and the decode latches replaced, and nothing else. -/
def State.setFetch (s : State) (pc : Nat) (l : Latches) : State := { s with vm := { s.vm with pc := pc, latches := l } }

/-- `x[i]`: `AddressOutOfBounds` if `i >= R` (R8, R11). -/
def readReg (s : State) (i : Nat) : Except Condition Word :=
  match s.vm.x[i]? with
  | some v => .ok v
  | none => .error .addressOutOfBounds

/-- `x[i] <- v`: `AddressOutOfBounds` and nothing written if `i >= R` (R8, R11). -/
def writeReg (s : State) (i : Nat) (v : Word) : Except Condition State :=
  if i < Config.regCount then .ok (s.setRegs (s.vm.x.setIfInBounds i v))
  else .error .addressOutOfBounds

/-- `MemRead(addr, 1)`: `AddressOutOfBounds` if `addr >= M`, with no wrap-around (R8, R33). -/
def memRead (s : State) (addr : Nat) : Except Condition Word :=
  if addr < s.params.memWords then .ok (s.vm.mem.read addr) else .error .addressOutOfBounds

/-- `MemWrite(addr, 1, v)`: `AddressOutOfBounds` and nothing written if `addr >= M` (R8, R34). -/
def memWrite (s : State) (addr : Nat) (v : Word) : Except Condition State :=
  if addr < s.params.memWords then .ok (s.setMem (s.vm.mem.write addr v))
  else .error .addressOutOfBounds

/-- Fault entry of an interpretation pass: `VSTATE`, `FAULT_COND`, `FAULT_BIT`, the FSM in `D_FAULT`, and nothing else
(R173, R122). The recorded bit is `IBASE` of the faulting instruction, or 0 for the range check (R170). -/
def raiseRun (c : Condition) (bit : Option Nat) (s : State) : State :=
  { s with vm := { s.vm with vstate := .fault, faultCond := some c, faultBit := bit, dstate := .fault } }

/-- Fault entry of an assembly pass: `ESTATE`, `ERR_COND`, `ERR_LINE` (R173); what earlier lines built is discarded
(R112). -/
def raiseAsm (c : Condition) (line : Nat) : Encoder :=
  { writer := Writer.empty, log := [], estate := .failed, errCond := some c, errLine := some line }

/-- How the rule of an instruction ends: its effects, or fault entry with `FAULT_BIT` set from `IBASE` and neither `x`
nor `mem` changed (R126, R171, R173). -/
def settle (s : State) (r : Except Condition State) : Host.Outcome State Fault Refusal :=
  match r with
  | .ok t => .next t
  | .error c => .next (raiseRun c s.vm.latches.ibase s)

/-- The normal end of a run: `VSTATE` is `DONE` and the FSM in `D_DONE` (R121, R122, R201). -/
def finishRun (s : State) : State := { s with vm := { s.vm with vstate := .done, dstate := .done } }

end Sys2Proof.Machine
end

