-- ==== Sys2Proof/Machine/Assembler.lean ====
section
/-! DEFINITION. The encoder: the text front-end, the checks and packing of one instruction record, the log, and the
all-or-nothing assembly pass (spec/41_encoder.md; the text form is 30_encoding.md R64 to R69). -/

namespace Sys2Proof.Machine

/-! ## Text -/

/-- The whitespace set: space, tab, carriage return, vertical tab, form feed (R64, decision D12). -/
def isBlank (c : Char) : Bool := c == ' ' || c == '\t' || c == '\r' || c == '\x0b' || c == '\x0c'

/-- The text cut into physical lines at line feeds (R64). -/
def splitLines : List Char → List (List Char)
  | [] => [[]]
  | c :: cs =>
    if c = '\n' then [] :: splitLines cs
    else
      match splitLines cs with
      | [] => [[c]]
      | l :: ls => (c :: l) :: ls

/-- The tokens of a line; `cur` holds the token being read (R64, R65). -/
def tokensFrom (cur : List Char) : List Char → List (List Char)
  | [] => if cur.isEmpty then [] else [cur]
  | c :: cs =>
    if isBlank c then (if cur.isEmpty then tokensFrom [] cs else cur :: tokensFrom [] cs)
    else tokensFrom (cur ++ [c]) cs

/-- A line split on whitespace (R65). -/
def tokens (line : List Char) : List (List Char) := tokensFrom [] line

/-- The upper-case spelling of a mnemonic (R52, R65). -/
def spelling : Mnemonic → List Char
  | .load => ['L', 'O', 'A', 'D']
  | .read => ['R', 'E', 'A', 'D']
  | .write => ['W', 'R', 'I', 'T', 'E']
  | .popcnt => ['P', 'O', 'P', 'C', 'N', 'T']

/-- ASCII case folding to upper case (R65, decision D13). -/
def foldUpper (c : Char) : Char := if 97 ≤ c.toNat ∧ c.toNat ≤ 122 then Char.ofNat (c.toNat - 32) else c

/-- `resolve(t)`: the row whose name is the folded token (R102). -/
def resolve (t : List Char) : Option Row := descriptor.find? (fun r => spelling r.name == t.map foldUpper)

/-- A decimal digit `0` to `9` (R67). -/
def isDigit (c : Char) : Bool := decide (48 ≤ c.toNat) && decide (c.toNat ≤ 57)

/-- The decimal value of a string of digits. -/
def digitsValue (cs : List Char) : Nat := cs.foldl (fun n c => 10 * n + (c.toNat - 48)) 0

/-- `parse(t)`: a non-empty string of decimal digits, and nothing else (R67, R103). -/
def parseOperand (t : List Char) : Option Nat :=
  if t.isEmpty then none else if t.all isDigit then some (digitsValue t) else none

/-- The operand tokens parsed left to right; `none` where one is bad (R103). -/
def parseOperands : List (List Char) → Option (List Nat)
  | [] => some []
  | t :: ts =>
    match parseOperand t with
    | none => none
    | some v => (parseOperands ts).map (fun vs => v :: vs)

/-! ## One instruction record -/

/-- Every operand is below `2^w` of its field (R106). -/
def operandsFit : List Field → List Nat → Bool
  | f :: fs, v :: vs => decide (v < 2 ^ f.width) && operandsFit fs vs
  | _, _ => true

/-- The log entry of one instruction (R110). -/
def logEntry (row : Row) (ops : List Nat) : LogEntry :=
  { name := row.name, code := row.code, operands := (row.fields.map (fun f => f.name)).zip ops }

/-- `encode(row, ops, n)`: the arity of the record, then the range of every operand, then the packing and the log entry
(R104 to R106, R109). The line number is added by the caller (`raiseAsm`). -/
def encodeRecord (row : Row) (ops : List Nat) (e : Encoder) : Except Condition Encoder :=
  if ops.length ≠ row.fields.length then .error .arityError
  else if operandsFit row.fields ops then
    .ok { e with writer := pack e.writer row ops, log := e.log ++ [logEntry row ops] }
  else .error .operandOverflow

/-! ## One line -/

/-- An instruction line: mnemonic, then arity, then the operand tokens, then the range (R107). -/
def assembleInstruction (mnemonic : List Char) (operands : List (List Char)) (e : Encoder) : Except Condition Encoder :=
  match resolve mnemonic with
  | none => .error .unknownOpcode
  | some row =>
    if operands.length ≠ row.fields.length then .error .arityError
    else
      match parseOperands operands with
      | none => .error .badOperandToken
      | some ops => encodeRecord row ops e

/-- One physical line; a blank line and a comment line are skipped (R64, R101). -/
def assembleLine (line : List Char) (e : Encoder) : Except Condition Encoder :=
  match tokens line with
  | [] => .ok e
  | t :: ts => if t.head? = some '#' then .ok e else assembleInstruction t ts e

/-! ## The pass -/

/-- The lines after line `n`, in order; the first condition ends the pass (R107, R112, R117). -/
def assembleLines : List (List Char) → Nat → Encoder → Encoder
  | [], _, e => { e with estate := .final }
  | line :: lines, n, e =>
    match assembleLine line e with
    | .ok e' => assembleLines lines (n + 1) e'
    | .error c => raiseAsm c (n + 1)

/-- `assemble(text)`: the encoder after the whole pass, from reset (R100, R117, R190). -/
def assemblePass (text : List Char) : Encoder := assembleLines (splitLines text) 0 Encoder.reset

/-- The records of a user without a text front-end, in order (R104); `ERR_LINE` is then the record's position, counted
from 1 (log entry 7). -/
def encodeRecords : List Record → Nat → Encoder → Encoder
  | [], _, e => { e with estate := .final }
  | r :: rs, n, e =>
    match encodeRecord r.name.row r.ops e with
    | .ok e' => encodeRecords rs (n + 1) e'
    | .error c => raiseAsm c (n + 1)

/-- The pass over instruction records, from reset (R104, R190). -/
def recordPass (rs : List Record) : Encoder := encodeRecords rs 0 Encoder.reset

/-! ## Canonical text -/

/-- The decimal digits of `n` without leading zeros, by `fuel` divisions at most. -/
def decimalFrom : Nat → Nat → List Char
  | 0, _ => []
  | fuel + 1, n => if n < 10 then [Char.ofNat (48 + n)] else decimalFrom fuel (n / 10) ++ [Char.ofNat (48 + n % 10)]

/-- A natural number in decimal (R69). -/
def decimal (n : Nat) : List Char := decimalFrom (n + 1) n

/-- The canonical text of an instruction: mnemonic, space, first operand, space, second operand (R69). -/
def canonicalText (i : Instr) : List Char :=
  spelling i.mnemonic ++ (i.operands.map (fun v => ' ' :: decimal v)).flatten

end Sys2Proof.Machine
end

