-- ==== Sys2Proof/Machine/Operands.lean ====
section
/-! DEFINITION. The operand forms of CM-CORE (spec/43_load_read_write.md R143). Each field of each instruction has exactly
one; an effective address is a word index, used whole, with no offset, scaling or modification. -/

namespace Sys2Proof.Machine

/-- Immediate (a): `zext_32(const)` (R60, R143, R152). -/
def immediate (const : Nat) : Word := BitVec.ofNat 32 const

/-- Register direct (b), read as data (R143). -/
def registerDirect (s : State) (field : Nat) : Except Condition Word := readReg s field

/-- Register indirect (c): `EA = x[field]`, the register's whole value as a natural number (R33, R143). -/
def registerIndirect (s : State) (field : Nat) : Except Condition Nat :=
  match readReg s field with
  | .ok v => .ok v.toNat
  | .error c => .error c

/-- Absolute (d): `EA = src_mem_addr` (R143). -/
def absolute (field : Nat) : Nat := field

end Sys2Proof.Machine
end

