-- ==== Sys2Proof/Machine/DataMovement.lean ====
section
/-! DEFINITION. LOAD, READ and WRITE (spec/43_load_read_write.md R140, R141, R142), each applied with the cursor already
past the instruction. -/

namespace Sys2Proof.Machine

/-- LOAD: `x[dest_reg] <- zext_32(const)` (R140). -/
def execLoad (destReg const : Nat) (s : State) : Host.Outcome State Fault Refusal :=
  settle s (writeReg s destReg (immediate const))

/-- READ: `x[dest_reg] <- MemRead(x[src_addr_reg], 1)` (R141). -/
def execRead (srcAddrReg destReg : Nat) (s : State) : Host.Outcome State Fault Refusal :=
  settle s do
    let a ← registerIndirect s srcAddrReg
    let v ← memRead s a
    writeReg s destReg v

/-- WRITE: `MemWrite(x[dest_reg], 1, x[src_reg])` (R142). -/
def execWrite (destReg srcReg : Nat) (s : State) : Host.Outcome State Fault Refusal :=
  settle s do
    let a ← registerIndirect s destReg
    let v ← registerDirect s srcReg
    memWrite s a v

end Sys2Proof.Machine
end

