-- ==== Sys2Proof/Machine/Alu.lean ====
section
/-! DEFINITION. The one computing unit a program reaches: the population counter (spec/44_popcnt_alu.md R151, R153). The
zero extension of LOAD is `immediate` (Operands.lean); the bounds comparators are in Ops.lean. CM-CORE has no flags
(10_state.md R20), so no flag is computed anywhere. -/

namespace Sys2Proof.Machine

/-- The number of 1 bits among the `n` low bits of `v`. -/
def countBits (v : Word) : Nat → Nat
  | 0 => 0
  | n + 1 => countBits v n + (v.getLsbD n).toNat

/-- `popcount(v)`: the sum of the `W` bits of `v` (R151). -/
def popcount (v : Word) : Nat := countBits v 32

end Sys2Proof.Machine
end

