-- ==== Sys2Proof/Machine/Popcnt.lean ====
section
/-! DEFINITION. POPCNT (spec/44_popcnt_alu.md R150): memory to memory, absolute source, indirect destination. -/

namespace Sys2Proof.Machine

/-- POPCNT: `MemWrite(x[dest_addr_reg], 1, zext_32(popcount(MemRead(src_mem_addr, 1))))` (R150). -/
def execPopcnt (destAddrReg srcMemAddr : Nat) (s : State) : Host.Outcome State Fault Refusal :=
  settle s do
    let v ← memRead s (absolute srcMemAddr)
    let a ← registerIndirect s destAddrReg
    memWrite s a (BitVec.ofNat 32 (popcount v))

end Sys2Proof.Machine
end

