-- ==== Sys2Proof/Machine/Dispatch.lean ====
section
/-! DEFINITION. The dispatch of a decoded instruction to its rule (spec/42_decoder.md R126). -/

namespace Sys2Proof.Machine

def exec (i : Instr) (s : State) : Host.Outcome State Fault Refusal :=
  match i with
  | .load destReg const => Sys2Proof.Machine.execLoad destReg const s
  | .read srcAddrReg destReg => Sys2Proof.Machine.execRead srcAddrReg destReg s
  | .write destReg srcReg => Sys2Proof.Machine.execWrite destReg srcReg s
  | .popcnt destAddrReg srcMemAddr => Sys2Proof.Machine.execPopcnt destAddrReg srcMemAddr s

end Sys2Proof.Machine
end

