-- ==== Sys2Proof/Machine/Pass.lean ====
section
/-! DEFINITION. The run loop of the decoder/VM, the admission of a run, and the taking of a host call
(spec/42_decoder.md R121 to R130, 70_reset_and_hazards.md R190 to R193, R202). -/

namespace Sys2Proof.Machine

/-- One turn of the run loop: the end test between instructions (R127), else one instruction decoded and executed
(R121, R137). A decode condition is taken with `FAULT_BIT = IBASE` (R170). -/
def runTurn (s : State) : Host.Outcome State Fault Refusal :=
  if s.vm.pc < lenBits s.vm.ibuf then
    match decodeOne s.vm.ibuf s.vm.pc s.vm.latches with
    | { latches := l, pc := p, result := .ok i } => exec i (s.setFetch p l)
    | { latches := l, pc := p, result := .error c } =>
      .next (raiseRun c l.ibase (s.setFetch p l))
  else .next (finishRun s)

/-- A buffer the decoder accepts: at most `LMAX` bytes, where there is a limit (R5; what a longer one does is log entry 3). -/
def acceptsLength (p : Params) (buf : List Byte) : Bool :=
  match p.lmax with
  | none => true
  | some n => decide (buf.length ≤ n)

/-- The decoder/VM reset at the start of a run and given its inputs (R121, R125, R191). -/
def loadedVM (buf : List Byte) (snapStart snapEnd : Nat) : VM :=
  { VM.reset with ibuf := buf, snapStart := some snapStart, snapEnd := some snapEnd }

/-- Admission of a run: reset, then the range check, before anything is decoded and whatever the buffer (R125, R172 (1)).
DESIGN CHOICE, log entry 3: a run whose range is legal and whose buffer is longer than a finite `LMAX` stops with
`bufferTooLong`. Safe. -/
def admitRun (buf : List Byte) (snapStart snapEnd : Nat) (s : State) : Host.Outcome State Fault Refusal :=
  if snapStart ≤ snapEnd ∧ snapEnd ≤ s.params.memWords then
    if acceptsLength s.params buf then
      .next { s with vm := { loadedVM buf snapStart snapEnd with vstate := .run, dstate := .fetch } }
    else .fault .bufferTooLong
  else .next (raiseRun .addressOutOfBounds (some 0) { s with vm := loadedVM buf snapStart snapEnd })

/-- Between passes: the oldest host call is taken, and without one the terminal state is held (R173, R202). -/
def takeCall (s : State) : Host.Outcome State Fault Refusal :=
  match s.calls with
  | [] => .next s
  | .assemble text :: rest => .next { s with enc := assemblePass text, calls := rest }
  | .assembleRecords rs :: rest => .next { s with enc := recordPass rs, calls := rest }
  | .run buf a b :: rest => admitRun buf a b { s with calls := rest }

/-- One step: an instruction of the run in progress, else a host call (R9, R137, R202). -/
def stepOnce (s : State) : Host.Outcome State Fault Refusal :=
  match s.vm.vstate with
  | .run => runTurn s
  | .idle => takeCall s
  | .done => takeCall s
  | .fault => takeCall s

/-- The stream with the `n` low bits of `w` from bit `pc` on, every other bit as before and zero where there was none. -/
def spliceAt (buf : List Byte) (pc n w : Nat) : List Byte :=
  bytesOfNat (max buf.length ((pc + n + 7) / 8))
    (natOfBytes buf % 2 ^ pc + (w % 2 ^ n) * 2 ^ pc + natOfBytes buf / 2 ^ (pc + n) * 2 ^ (pc + n))

/-- The state in which the next step runs the instruction word `w`: it stands at the cursor (zero above `nbits`, up to
the longest instruction), and a run is in progress, over the empty range where the host has given none (log entry 2). -/
def placeAtCursor (s : State) (nbits w : Nat) : State :=
  { s with vm := { s.vm with
      ibuf := spliceAt s.vm.ibuf s.vm.pc (max 48 nbits) (w % 2 ^ nbits)
      snapStart := some (s.vm.snapStart.getD 0)
      snapEnd := some (s.vm.snapEnd.getD 0)
      vstate := .run, faultCond := none, faultBit := none, dstate := .fetch } }

end Sys2Proof.Machine
end

