-- ==== Sys2Proof/Machine/Step.lean ====
section
/-! DEFINITION. The machine's step and the placing of one instruction where it fetches (spec/42_decoder.md R137). -/

namespace Sys2Proof.Machine

/-- One step of CM-CORE (R9, R137). -/
def step (s : State) : Host.Outcome State Fault Refusal := stepOnce s

/-- The state whose next step runs the instruction word `w` (log entry 2). -/
def State.withFetchWord (s : State) (nbits w : Nat) : State := placeAtCursor s nbits w

end Sys2Proof.Machine
end

