-- ==== Sys2Proof/Machine/Fsm.lean ====
section
/-! DEFINITION. The decode FSM below the level of one instruction (spec/42_decoder.md R122), over the same state. Entering
`D_DONE` or `D_FAULT` performs that state's action at once (log entry 8). `step` does not use it; the two are related by
a statement. -/

namespace Sys2Proof.Machine

/-- `D_FETCH`: the end test, else `IBASE <- pc`, `OP <- read(7)` (R122). -/
def fsmFetch (s : State) : State :=
  if s.vm.pc < lenBits s.vm.ibuf then
    match readBits s.vm.ibuf s.vm.pc Config.opcodeWidth with
    | .error _ =>
      raiseRun .malformedInstruction (some s.vm.pc)
        { s with vm := { s.vm with latches := { s.vm.latches with ibase := some s.vm.pc } } }
    | .ok (op, p) =>
      { s with vm := { s.vm with
          pc := p, dstate := .resolve
          latches := { s.vm.latches with ibase := some s.vm.pc, op := some (BitVec.ofNat 7 op) } } }
  else finishRun s

/-- `D_RESOLVE`: `ROW <-` the row of `OP`, `j <- 0` (R122). -/
def fsmResolve (s : State) : State :=
  match s.vm.latches.op.bind lookupRow with
  | none => raiseRun .unknownOpcode s.vm.latches.ibase s
  | some row => { s with vm := { s.vm with dstate := .field 0, latches := { s.vm.latches with row := some row.name } } }

/-- `D_FIELD`: `F[j] <- read(width)`, `j <- j + 1`, and on to `D_TAIL` after the last field (R122). -/
def fsmField (j : Nat) (row : Row) (s : State) : State :=
  match row.fields[j]? with
  | none => { s with vm := { s.vm with dstate := .tail } }
  | some f =>
    match readBits s.vm.ibuf s.vm.pc f.width with
    | .error _ => raiseRun .malformedInstruction s.vm.latches.ibase s
    | .ok (v, p) =>
      { s with vm := { s.vm with
          pc := p, latches := s.vm.latches.setField j v
          dstate := if j + 1 < row.fields.length then .field (j + 1) else .tail } }

/-- `D_TAIL`: `RSV <- read(resv)`, which must be 0 (R122, R134). -/
def fsmTail (row : Row) (s : State) : State :=
  match readBits s.vm.ibuf s.vm.pc row.resv with
  | .error _ => raiseRun .malformedInstruction s.vm.latches.ibase s
  | .ok (t, p) =>
    let s' := { s with vm := { s.vm with pc := p, latches := { s.vm.latches with rsv := some (BitVec.ofNat 6 t) } } }
    if t = 0 then { s' with vm := { s'.vm with dstate := .exec } } else raiseRun .malformedInstruction s.vm.latches.ibase s'

/-- `D_EXEC`: the rule of the instruction in `ROW`, `F[0]`, `F[1]`, then back to `D_FETCH` or into `D_FAULT` (R122). -/
def fsmExec (m : Mnemonic) (a b : BitVec 32) (s : State) : Host.Outcome State Fault Refusal :=
  exec (Instr.ofFields m a.toNat b.toNat) { s with vm := { s.vm with dstate := .fetch } }

/-- One transition of the FSM. Where a latch that the state needs has no value, which no run reaches, the state is
held. -/
def fsmStep (s : State) : Host.Outcome State Fault Refusal :=
  match s.vm.dstate with
  | .idle => takeCall s
  | .done => takeCall s
  | .fault => takeCall s
  | .fetch => .next (fsmFetch s)
  | .resolve => .next (fsmResolve s)
  | .field j =>
    match s.vm.latches.row with
    | some m => .next (fsmField j m.row s)
    | none => .next s
  | .tail =>
    match s.vm.latches.row with
    | some m => .next (fsmTail m.row s)
    | none => .next s
  | .exec =>
    match s.vm.latches.row, s.vm.latches.f0, s.vm.latches.f1 with
    | some m, some a, some b => fsmExec m a b s
    | _, _, _ => .next s

/-- `n` transitions of the FSM, ending at a stop. -/
def fsmSteps : Nat → State → Host.Outcome State Fault Refusal
  | 0, s => .next s
  | n + 1, s =>
    match fsmStep s with
    | .next t => fsmSteps n t
    | .fault r => .fault r
    | .refused r => .refused r

end Sys2Proof.Machine
end

