-- ==== Sys2Proof/Machine/Output.lean ====
section
/-! DEFINITION. What the host receives at the end of a pass (spec/41_encoder.md R100, R111, R112; 42_decoder.md R120, R131 to
R133; 70_reset_and_hazards.md R201, R202): a complete result or a clean failure, and nothing while a pass is open. -/

namespace Sys2Proof.Machine

/-- `assemble(text) = Ok(bytes, log) | Err(cond, line)` (R100). -/
inductive AsmResult where
  | ok (bytes : List Byte) (log : List LogEntry)
  | err (cond : Condition) (line : Nat)
  deriving DecidableEq, Repr

/-- `run(ibuf, start, end) = Ok(snapshot, regs?) | Fault(cond, bit_offset)` (R120). Words are given as integers (R131),
the snapshot's keys as integer addresses (decision D24). -/
inductive RunResult where
  | ok (snapshot : List (Nat × Nat)) (regs : Option (List Nat))
  | fault (cond : Condition) (bit : Nat)
  deriving DecidableEq, Repr

/-- The pairs `(a, mem[a])` of `n` addresses from `a` up, ascending (R131). -/
def snapshotFrom (m : Memory) (a : Nat) : Nat → List (Nat × Nat)
  | 0 => []
  | n + 1 => (a, (m.read a).toNat) :: snapshotFrom m (a + 1) n

/-- The snapshot of `[start, end)` (R35, R131). -/
def snapshot (m : Memory) (snapStart snapEnd : Nat) : List (Nat × Nat) := snapshotFrom m snapStart (snapEnd - snapStart)

/-- The register output `x[0], .., x[R-1]`, when `EXPOSE_REGS` is true (R133). -/
def regsOutput (s : State) : Option (List Nat) :=
  if s.params.exposeRegs then some (s.vm.x.toList.map (fun v => v.toNat)) else none

/-- What the host can read of the decoder/VM: nothing before a run has ended, the snapshot after `DONE`, the condition
and the offset alone after `FAULT` (R132, R201). -/
def runResult (s : State) : Option RunResult :=
  match s.vm.vstate with
  | .idle => none
  | .run => none
  | .done =>
    match s.vm.snapStart, s.vm.snapEnd with
    | some a, some b => some (.ok (snapshot s.vm.mem a b) (regsOutput s))
    | _, _ => none
  | .fault =>
    match s.vm.faultCond, s.vm.faultBit with
    | some c, some n => some (.fault c n)
    | _, _ => none

/-- What the host can read of the encoder: nothing while it is open, bytes and log after `FINAL`, condition and line
alone after `FAILED` (R111, R112). -/
def asmResult (e : Encoder) : Option AsmResult :=
  match e.estate with
  | .opened => none
  | .final => some (.ok e.writer.finalize e.log)
  | .failed =>
    match e.errCond, e.errLine with
    | some c, some n => some (.err c n)
    | _, _ => none

end Sys2Proof.Machine
end

