-- ==== Sys2Proof/Machine/Transaction.lean ====
section
/-! DEFINITION. The two transactions of the host (spec/41_encoder.md R100, 42_decoder.md R120, 70_reset_and_hazards.md R202)
as functions of their inputs, over the same step. -/

namespace Sys2Proof.Machine

/-- `n` steps, ending at a stop. -/
def steps : Nat → State → Host.Outcome State Fault Refusal
  | 0, s => .next s
  | n + 1, s =>
    match step s with
    | .next t => steps n t
    | .fault r => .fault r
    | .refused r => .refused r

/-- `assemble(text)` (R100). -/
def assemble (text : List Char) : Option AsmResult := asmResult (assemblePass text)

/-- The machine with one `run` call placed by the host. -/
def withRunCall (s : State) (buf : List Byte) (snapStart snapEnd : Nat) : State :=
  { s with calls := [.run buf snapStart snapEnd] }

/-- `run(ibuf, start, end)` on the machine `s`: the admission, at most `L div 2` instructions (R146), and the end test. -/
def run (s : State) (buf : List Byte) (snapStart snapEnd : Nat) : Option RunResult :=
  match steps (buf.length / 2 + 2) (withRunCall s buf snapStart snapEnd) with
  | .next t => runResult t
  | .fault _ => none
  | .refused _ => none

end Sys2Proof.Machine
end

