-- ==== Sys2Proof/Safety.lean ====
section
/-! DEFINITION. What counts as a safe state of CM-CORE, in the terms the statements use: the invariants the spec states of
the writer (40_bitstream.md R82) and of the machine between two steps (00_scope.md R6, 10_state.md R13, R14, R17, R18, R24,
42_decoder.md R122, R125, R127, 60_exceptions.md R170). -/

namespace Sys2Proof.Machine

/-- The writer invariant of R82: `ceil(wbits / 8)` bytes, and every bit at a position `>= wbits` is 0. -/
structure WriterSafe (w : Writer) : Prop where
  bytes : w.wbuf.length = (w.wbits + 7) / 8
  zeroAbove : ∀ k, w.wbits ≤ k → streamBit w.wbuf k = false

/-- The three conditions an interpretation pass can report (R18, R161). -/
def runCondition (c : Condition) : Bool :=
  c == .unknownOpcode || c == .malformedInstruction || c == .addressOutOfBounds

/-- The four conditions an assembly pass can report (R24, R161). -/
def asmCondition (c : Condition) : Bool :=
  c == .unknownOpcode || c == .arityError || c == .operandOverflow || c == .badOperandToken

/-- The FSM state that stands beside each `VSTATE` between two steps (R122). -/
def VState.fsm : VState → DState
  | .idle => .idle
  | .run => .fetch
  | .done => .done
  | .fault => .fault

/-- What holds of the decoder/VM side between two steps. -/
structure VMSafe (p : Params) (v : VM) : Prop where
  /-- The memory is in its canonical form. -/
  memCanonical : v.mem.wf
  /-- Only the words `0 .. M-1` exist (R40). -/
  memInside : ∀ c ∈ v.mem, c.1 < p.memWords
  /-- Every register holds less than `2^24` (R6 (e)). -/
  regsSmall : ∀ w ∈ v.x.toList, w.toNat < 2 ^ 24
  /-- Every memory word holds less than `2^24` (R6 (e)). -/
  memSmall : ∀ c ∈ v.mem, c.2.toNat < 2 ^ 24
  /-- `0 <= pc <= len_bits(ibuf)` (R13). -/
  cursorInside : v.pc ≤ lenBits v.ibuf
  /-- `pc` is a multiple of 8 at every instruction boundary (R14). -/
  cursorAligned : v.vstate ≠ .fault → v.pc % 8 = 0
  /-- The FSM agrees with `VSTATE` (R122). -/
  fsmAgrees : v.dstate = v.vstate.fsm
  /-- A run in progress or completed has a legal range (R17, R125). -/
  rangeLegal : v.vstate = .run ∨ v.vstate = .done →
    ∃ a b, v.snapStart = some a ∧ v.snapEnd = some b ∧ a ≤ b ∧ b ≤ p.memWords
  /-- A completed run stands at the end of the buffer (R127, R201). -/
  doneAtEnd : v.vstate = .done → v.pc = lenBits v.ibuf
  /-- The fault record has a value exactly in `FAULT` (R18), names one of the three conditions, and its offset is a
  multiple of 8 inside the buffer (R170). -/
  faultRecord : v.vstate = .fault →
    ∃ c n, v.faultCond = some c ∧ v.faultBit = some n ∧ runCondition c = true ∧ n % 8 = 0 ∧ n ≤ lenBits v.ibuf
  noFaultRecord : v.vstate ≠ .fault → v.faultCond = none ∧ v.faultBit = none

/-- What holds of the encoder side between two steps. -/
structure EncoderSafe (e : Encoder) : Prop where
  writerSafe : WriterSafe e.writer
  /-- Whole instructions only: `wbits` is a multiple of 8 (R84). -/
  wholeBytes : e.writer.wbits % 8 = 0
  /-- The error record has a value exactly in `FAILED` (R24), and then nothing built is kept (R112). -/
  errRecord : e.estate = .failed →
    ∃ c n, e.errCond = some c ∧ e.errLine = some n ∧ asmCondition c = true ∧ 1 ≤ n ∧ e.writer = Writer.empty ∧ e.log = []
  noErrRecord : e.estate ≠ .failed → e.errCond = none ∧ e.errLine = none

/-- The machine invariant: legal parameters (R5) and both sides safe. -/
structure Safe (s : State) : Prop where
  paramsLegal : s.params.legal
  vmSafe : VMSafe s.params s.vm
  encSafe : EncoderSafe s.enc

end Sys2Proof.Machine
end

