-- ==== Sys2Proof/Certificates/Slice0/Obligations.lean ====
section
/-! DEFINITION. The statements for the provers, in the order of the spec's files. Each docstring names the rules it rests
on; a register, a memory word or a field that a statement does not name as changed is stated unchanged. -/

open Sys2Proof Sys2Proof.Machine

/-! ## The writer and the reader (40_bitstream.md) -/

/-- R88: any sequence of writes read back with the same widths gives the written values modulo `2^w`, with no `OutOfData`
and the cursor at the sum of the widths; values that fit come back exactly. -/
def Obligations.WrittenFieldsReadBack : Prop :=
  ∀ ws : List (Nat × Nat),
    readAll (Writer.empty.writeAll ws).finalize 0 (ws.map Prod.snd) =
      .ok (ws.map (fun p => p.1 % 2 ^ p.2), (ws.map Prod.snd).sum) ∧
    ((∀ p ∈ ws, p.1 < 2 ^ p.2) →
      readAll (Writer.empty.writeAll ws).finalize 0 (ws.map Prod.snd) = .ok (ws.map Prod.fst, (ws.map Prod.snd).sum))

/-- R82: the writer invariant holds after reset and after every `write`, and `write` changes no bit already written. -/
def Obligations.WriterKeepsItsInvariant : Prop :=
  WriterSafe Writer.empty ∧
  ∀ (w : Writer) (v n : Nat), WriterSafe w →
    WriterSafe (w.write v n) ∧ ∀ k, k < w.wbits → streamBit (w.write v n).wbuf k = streamBit w.wbuf k

/-- R83: `write` adds `(value mod 2^width) * 2^wbits` to the stream read as one number. -/
def Obligations.WriteIsAShiftAndMerge : Prop :=
  ∀ (w : Writer) (v n : Nat), WriterSafe w →
    (w.write v n).wbits = w.wbits + n ∧
    natOfBytes (w.write v n).wbuf = natOfBytes w.wbuf + v % 2 ^ n * 2 ^ w.wbits ∧
    (w.write v n).wbuf = bytesOfNat ((w.wbits + n + 7) / 8) (natOfBytes w.wbuf + v % 2 ^ n * 2 ^ w.wbits)

/-- R84: `finalize` gives the bytes written, `ceil(wbits / 8)` of them, whose bits from `wbits` on are zero. -/
def Obligations.FinalizePadsWithZeros : Prop :=
  ∀ ws : List (Nat × Nat),
    (Writer.empty.writeAll ws).finalize = (Writer.empty.writeAll ws).wbuf ∧
    (Writer.empty.writeAll ws).finalize.length = ((ws.map Prod.snd).sum + 7) / 8 ∧
    ∀ k, (ws.map Prod.snd).sum ≤ k → streamBit (Writer.empty.writeAll ws).finalize k = false

/-- R86: `read` raises `OutOfData` exactly when the bits would pass the end; otherwise it gives
`(S >> pc) mod 2^width` and moves the cursor by `width`. -/
def Obligations.ReadIsAShiftAndMask : Prop :=
  ∀ (buf : List Byte) (pc n : Nat),
    readBits buf pc n =
      if pc + n > lenBits buf then .error .outOfData else .ok ((natOfBytes buf >>> pc) % 2 ^ n, pc + n)

/-! ## The encoding (30_encoding.md) -/

/-- R51: codes unique, totals whole bytes that add up, codes of 7 bits, tails no longer than needed. -/
def Obligations.DescriptorKeepsItsInvariants : Prop :=
  (descriptor.map (fun r => r.code)).Nodup ∧
  ∀ r ∈ descriptor,
    r.total = 7 + (r.fields.map (fun f => f.width)).sum + r.resv ∧ r.total % 8 = 0 ∧ r.code.toNat < 128 ∧ r.resv < 8

/-- R61: exactly the codes 10, 18, 39 and 54 select a row, each its own. -/
def Obligations.FourCodesSelectARow : Prop :=
  lookupRow 10 = some (Mnemonic.row .load) ∧ lookupRow 54 = some (Mnemonic.row .read) ∧
  lookupRow 39 = some (Mnemonic.row .write) ∧ lookupRow 18 = some (Mnemonic.row .popcnt) ∧
  ∀ c : BitVec 7, lookupRow c = none ↔ c ≠ 10 ∧ c ≠ 18 ∧ c ≠ 39 ∧ c ≠ 54

/-- R54 to R57: the bytes of an instruction are as many as its row says and, read as one little-endian number, are the
integer of its format. -/
def Obligations.EncodingIsTheFormatWord : Prop :=
  ∀ i : Instr, i.WellFormed →
    (encode i).length = i.byteLength ∧
    natOfBytes (encode i) =
      match i with
      | .load d c => 10 + d * 2 ^ 7 + c * 2 ^ 10
      | .read a d => 54 + a * 2 ^ 7 + d * 2 ^ 39
      | .write d s => 39 + d * 2 ^ 7 + s * 2 ^ 10
      | .popcnt d m => 18 + d * 2 ^ 7 + m * 2 ^ 10

/-- R114: decoding the bytes of a well-formed instruction gives it back and leaves the cursor at its total length. -/
def Obligations.DecodingAnEncodingReturnsIt : Prop :=
  ∀ (i : Instr) (l : Latches), i.WellFormed →
    (decodeOne (encode i) 0 l).result = .ok i ∧ (decodeOne (encode i) 0 l).pc = i.row.total

/-- 30_encoding.md sections 2 and 4: what decodes is well formed, and its encoding is the bytes it was read from, so no
two byte sequences decode to the same instruction. -/
def Obligations.EncodingADecodedInstructionReturnsItsBytes : Prop :=
  ∀ (bytes rest : List Byte) (i : Instr), decode bytes = .ok (i, rest) → i.WellFormed ∧ encode i ++ rest = bytes

/-- R123 with R172 (2a) to (2d): the outcome of a decode as a function of the stream, for every buffer and cursor. -/
def Obligations.DecodeFollowsTheStatedPriority : Prop :=
  ∀ (buf : List Byte) (pc : Nat) (l : Latches),
    (decodeOne buf pc l).result =
      if lenBits buf < pc + 7 then .error .malformedInstruction
      else
        match lookupRow (BitVec.ofNat 7 (natOfBytes buf >>> pc)) with
        | none => .error .unknownOpcode
        | some r =>
          if lenBits buf < pc + r.total then .error .malformedInstruction
          else if (natOfBytes buf >>> (pc + r.total - r.resv)) % 2 ^ r.resv ≠ 0 then .error .malformedInstruction
          else
            .ok (Instr.ofFields r.name ((natOfBytes buf >>> (pc + 7)) % 2 ^ r.width 0)
              ((natOfBytes buf >>> (pc + 7 + r.width 0)) % 2 ^ r.width 1))

/-- R59: the bytes of a program decode back to its instructions, none left over, and their number is the sum of the
instruction lengths. -/
def Obligations.ProgramBytesDecodeToTheProgram : Prop :=
  ∀ is : List Instr, (∀ i ∈ is, i.WellFormed) →
    decodeProgram is.length (encodeProgram is) = .ok is ∧
    (encodeProgram is).length = (is.map Instr.byteLength).sum

/-- 95_test_vectors.md part 2 E: words written out from the formats decode to their instructions. -/
def Obligations.SpecWordsDecode : Prop :=
  decodeTableWord 40 0x000009E30A = some (.load 6 632) ∧ decodeTableWord 48 0x0180000000B6 = some (.read 1 3) ∧
  decodeTableWord 16 0x0AA7 = some (.write 5 2) ∧ decodeTableWord 48 0x000000001592 = some (.popcnt 3 5)

/-! ## The encoder (41_encoder.md) -/

/-- R108, R109: with two operands that fit, the packer makes exactly the four writes opcode, first field, second field,
zero tail, and appends one log entry; nothing else of the encoder changes. -/
def Obligations.PackerWritesOpcodeFieldsAndTail : Prop :=
  ∀ (m : Mnemonic) (a b : Nat) (e : Encoder), a < 2 ^ m.row.width 0 → b < 2 ^ m.row.width 1 →
    encodeRecord m.row [a, b] e =
      .ok { e with
        writer := e.writer.writeAll [(m.row.code.toNat, 7), (a, m.row.width 0), (b, m.row.width 1), (0, m.row.resv)]
        log := e.log ++ [{ name := m, code := m.row.code, operands := (m.row.fields.map (fun f => f.name)).zip [a, b] }] }

/-- R105, R106: a record is refused with `ArityError` exactly when it has not two operands, and with `OperandOverflow`
exactly when it has two and one does not fit its field. -/
def Obligations.PackerRejectsBadRecords : Prop :=
  ∀ (m : Mnemonic) (ops : List Nat) (e : Encoder),
    (encodeRecord m.row ops e = .error .arityError ↔ ops.length ≠ 2) ∧
    (encodeRecord m.row ops e = .error .operandOverflow ↔
      ∃ a b, ops = [a, b] ∧ (2 ^ m.row.width 0 ≤ a ∨ 2 ^ m.row.width 1 ≤ b))

/-- R107: the order of the checks on one instruction line. -/
def Obligations.LineChecksComeInOrder : Prop :=
  ∀ (t : List Char) (ts : List (List Char)) (e : Encoder),
    (resolve t = none → assembleInstruction t ts e = .error .unknownOpcode) ∧
    ∀ r, resolve t = some r →
      (ts.length ≠ 2 → assembleInstruction t ts e = .error .arityError) ∧
      (ts.length = 2 → (∃ u ∈ ts, parseOperand u = none) → assembleInstruction t ts e = .error .badOperandToken) ∧
      ∀ u w a b, ts = [u, w] → parseOperand u = some a → parseOperand w = some b →
        assembleInstruction t ts e = encodeRecord r [a, b] e

/-- R107 across lines, R101: the first offending line is the one reported, by its position among all physical lines. The
encoder `raiseAsm` leaves has an emptied writer and log, which is the model's choice (log entry 14). -/
def Obligations.FirstBadLineIsReported : Prop :=
  ∀ (good rest : List (List Char)) (bad : List Char) (n : Nat) (e e' : Encoder) (c : Condition),
    good.foldlM (fun e l => assembleLine l e) e = .ok e' → assembleLine bad e' = .error c →
    assembleLines (good ++ bad :: rest) n e = raiseAsm c (n + good.length + 1)

/-- R112: a pass ends with a complete result, or with a condition and a line of the text and nothing else. That the writer
and the log of a failed pass are then empty is the model's choice (log entry 14, DEDUCED: R112 says that they are discarded
and not observable, not what the storage holds). -/
def Obligations.AssemblyIsAllOrNothing : Prop :=
  ∀ text : List Char,
    ((assemblePass text).estate = .final ∧
      assemble text = some (.ok (assemblePass text).writer.finalize (assemblePass text).log)) ∨
    ((assemblePass text).estate = .failed ∧ (assemblePass text).writer = Writer.empty ∧ (assemblePass text).log = [] ∧
      ∃ c n, assemble text = some (.err c n) ∧ asmCondition c = true ∧ 1 ≤ n ∧ n ≤ (splitLines text).length)

/-- R111, R110, R114: the bytes of a successful pass are the encoded program of some well-formed instructions, the log is
their entries in order, and decoding the bytes gives those instructions back. -/
def Obligations.AssembledBytesDecodeToTheLoggedProgram : Prop :=
  ∀ (text : List Char) (bytes : List Byte) (log : List LogEntry), assemble text = some (.ok bytes log) →
    ∃ is : List Instr,
      (∀ i ∈ is, i.WellFormed) ∧ bytes = encodeProgram is ∧ log = is.map (fun i => logEntry i.row i.operands) ∧
      decodeProgram bytes.length bytes = .ok is

/-- R111: the byte count of a successful pass follows from the log. -/
def Obligations.ByteCountFollowsTheLog : Prop :=
  ∀ (text : List Char) (bytes : List Byte) (log : List LogEntry), assemble text = some (.ok bytes log) →
    (assemblePass text).estate = .final ∧
    bytes.length = 5 * log.countP (fun e => e.name == .load) + 6 * log.countP (fun e => e.name == .read) +
      2 * log.countP (fun e => e.name == .write) + 6 * log.countP (fun e => e.name == .popcnt)

/-- R64, R101, R113: the lines of a text are its pieces between line feeds; the tokens of a line are its maximal runs of
characters other than space, tab, carriage return, vertical tab and form feed (the equations determine them for every
line: it is blank, or blanks and a last run, or blanks, a run, one blank and a rest); a line with no token, or whose first
begins with `#`, changes nothing, any other is an instruction line, and there a `#` token is a bad operand. So a text of
only blank and comment lines assembles to nothing, successfully. -/
def Obligations.SkippedLinesAssembleToNothing : Prop :=
  let blank : Char → Prop := fun c => c ∈ [' ', '\t', '\r', '\x0b', '\x0c']
  (∀ text : List Char,
    splitLines text ≠ [] ∧ List.intercalate ['\n'] (splitLines text) = text ∧ ∀ l ∈ splitLines text, '\n' ∉ l) ∧
  (∀ gap : List Char, (∀ c ∈ gap, blank c) →
    tokens gap = [] ∧
    ∀ run : List Char, run ≠ [] → (∀ c ∈ run, ¬blank c) →
      tokens (gap ++ run) = [run] ∧
      ∀ (b : Char) (rest : List Char), blank b → tokens (gap ++ run ++ b :: rest) = run :: tokens rest) ∧
  (∀ (l : List Char) (e : Encoder),
    (tokens l = [] → assembleLine l e = .ok e) ∧
    (∀ t ts, tokens l = ('#' :: t) :: ts → assembleLine l e = .ok e) ∧
    ∀ t ts, tokens l = t :: ts → t.head? ≠ some '#' → assembleLine l e = assembleInstruction t ts e) ∧
  (∀ t : List Char, parseOperand ('#' :: t) = none) ∧
  ∀ text : List Char,
    (∀ l ∈ splitLines text, tokens l = [] ∨ ∃ t ts, tokens l = ('#' :: t) :: ts) → assemble text = some (.ok [] [])

/-- R69: assembling the canonical text of a well-formed instruction gives its instruction word and its log entry. -/
def Obligations.CanonicalTextAssemblesToItsEncoding : Prop :=
  ∀ i : Instr, i.WellFormed →
    assemble (canonicalText i) = some (.ok (encode i) [logEntry i.row i.operands])

/-- R65, R102: folding takes `a` to `z` to `A` to `Z` and leaves every other character alone; a mnemonic resolves to the row
whose name is its folded form, so exactly the letter-case spellings of LOAD, READ, WRITE and POPCNT resolve, each to its
own row. -/
def Obligations.MnemonicsResolveInAnyCase : Prop :=
  (∀ k, k < 26 → foldUpper (Char.ofNat (97 + k)) = Char.ofNat (65 + k)) ∧
  (∀ c : Char, c.toNat < 97 ∨ 122 < c.toNat → foldUpper c = c) ∧
  (spelling .load = "LOAD".toList ∧ spelling .read = "READ".toList ∧ spelling .write = "WRITE".toList ∧
    spelling .popcnt = "POPCNT".toList) ∧
  ∀ t : List Char,
    (∀ r, resolve t = some r ↔ r ∈ descriptor ∧ t.map foldUpper = spelling r.name) ∧
    resolve (t.map foldUpper) = resolve t ∧
    ∀ m : Mnemonic,
      resolve t = some m.row ↔ List.Forall₂ (fun c u => c = u ∨ c.toNat = u.toNat + 32) t (spelling m)

/-- R67: an operand token is a non-empty string of decimal digits, its value is decimal, and a leading zero does not
change it. -/
def Obligations.OperandTokensAreDecimal : Prop :=
  (∀ t : List Char, (∃ n, parseOperand t = some n) ↔ t ≠ [] ∧ ∀ c ∈ t, '0' ≤ c ∧ c ≤ '9') ∧
  (∀ n, parseOperand (decimal n) = some n) ∧
  ∀ t : List Char, t ≠ [] → parseOperand ('0' :: t) = parseOperand t

/-- R104: the pass over instruction records packs well-formed instructions into the program's bytes and logs each. -/
def Obligations.RecordsPackIntoTheProgram : Prop :=
  ∀ is : List Instr, (∀ i ∈ is, i.WellFormed) →
    asmResult (recordPass (is.map (fun i => { name := i.mnemonic, ops := i.operands }))) =
      some (.ok (encodeProgram is) (is.map (fun i => logEntry i.row i.operands)))

/-! ## Registers, memory, fault entry (00_scope.md R8, 20_memory.md, 60_exceptions.md) -/

/-- R8, R11: reading or writing a register at or above `R` raises `AddressOutOfBounds`; below, a write sets that register
and changes nothing else. -/
def Obligations.RegisterAccessIsBoundsChecked : Prop :=
  ∀ (s : State) (i : Nat) (v : Word),
    (8 ≤ i → readReg s i = .error .addressOutOfBounds ∧ writeReg s i v = .error .addressOutOfBounds) ∧
    (i < 8 → (∃ u, readReg s i = .ok u) ∧
      ∃ t, writeReg s i v = .ok t ∧ readReg t i = .ok v ∧ (∀ j, j ≠ i → readReg t j = readReg s j) ∧
        t = { s with vm := { s.vm with x := t.vm.x } })

/-- R33: `MemRead` raises `AddressOutOfBounds` at and above `M`, and below gives the word at the address. -/
def Obligations.MemReadIsBoundsChecked : Prop :=
  ∀ (s : State) (a : Nat),
    memRead s a = if a ≥ s.params.memWords then .error .addressOutOfBounds else .ok (s.vm.mem.read a)

/-- R34: `MemWrite` raises `AddressOutOfBounds` at and above `M`; below it sets that word and changes nothing else. -/
def Obligations.MemWriteIsBoundsChecked : Prop :=
  ∀ (s : State) (a : Nat) (v : Word), s.vm.mem.wf →
    (s.params.memWords ≤ a → memWrite s a v = .error .addressOutOfBounds) ∧
    (a < s.params.memWords →
      ∃ t, memWrite s a v = .ok t ∧ t.vm.mem.read a = v ∧ (∀ b, b ≠ a → t.vm.mem.read b = s.vm.mem.read b) ∧
        t = { s with vm := { s.vm with mem := t.vm.mem } })

/-- R39, R41 (c): a word reads as it was last written and a write leaves every other word alone. That there is a canonical
form, that a write keeps it and that canonical memories which read alike are equal is the model's choice of a form for
memory (log entry 6, DESIGN CHOICE), of which no rule speaks. -/
def Obligations.MemoryReadsBackTheLastWrite : Prop :=
  ∀ (m m' : Memory) (a : Nat) (v : Word), m.wf → m'.wf →
    (m.write a v).wf ∧ (∀ b, (m.write a v).read b = if b = a then v else m.read b) ∧
    ((∀ b, m.read b = m'.read b) → m = m')

/-- R173: fault entry sets `VSTATE`, `FAULT_COND` and `FAULT_BIT` (and the FSM's `D_FAULT`, R122), and nothing else; the
host then reads the condition and the offset and nothing more. -/
def Obligations.FaultEntryRecordsTheCondition : Prop :=
  ∀ (s : State) (c : Condition) (n : Nat),
    raiseRun c (some n) s =
      { params := s.params, enc := s.enc, calls := s.calls
        vm := { x := s.vm.x, mem := s.vm.mem, ibuf := s.vm.ibuf, pc := s.vm.pc, snapStart := s.vm.snapStart
                snapEnd := s.vm.snapEnd, latches := s.vm.latches
                vstate := .fault, faultCond := some c, faultBit := some n, dstate := .fault } } ∧
    runResult (raiseRun c (some n) s) = some (.fault c n) ∧
    asmResult (raiseAsm c n) = some (.err c n) ∧ (raiseAsm c n).estate = .failed

/-! ## The four instructions (43_load_read_write.md, 44_popcnt_alu.md) -/

/-- R140: LOAD completes on every constant and register of its fields: the register holds the zero-extended constant and
everything else is unchanged. -/
def Obligations.LoadWritesTheConstant : Prop :=
  ∀ (s : State) (d c : Nat), d < 8 → c < 2 ^ 24 →
    ∃ t, exec (.load d c) s = .next t ∧ (∃ v, readReg t d = .ok v ∧ v.toNat = c) ∧
      (∀ j, j ≠ d → readReg t j = readReg s j) ∧ (∀ a, t.vm.mem.read a = s.vm.mem.read a) ∧
      t = { s with vm := { s.vm with x := t.vm.x } }

/-- R141: READ completes when its source names a register that holds an address inside memory: the destination holds
that word and everything else is unchanged. -/
def Obligations.ReadCopiesTheWord : Prop :=
  ∀ (s : State) (r d a : Nat), d < 8 → registerIndirect s r = .ok a → a < s.params.memWords →
    ∃ t, exec (.read r d) s = .next t ∧ readReg t d = .ok (s.vm.mem.read a) ∧
      (∀ j, j ≠ d → readReg t j = readReg s j) ∧ (∀ b, t.vm.mem.read b = s.vm.mem.read b) ∧
      t = { s with vm := { s.vm with x := t.vm.x } }

/-- R142: WRITE completes when the address its first register holds is inside memory: that word holds the second
register's value; no register and no other word changes. -/
def Obligations.WriteStoresTheRegister : Prop :=
  ∀ (s : State) (d r a : Nat) (v : Word), s.vm.mem.wf → registerIndirect s d = .ok a → registerDirect s r = .ok v →
    a < s.params.memWords →
    ∃ t, exec (.write d r) s = .next t ∧ t.vm.mem.read a = v ∧
      (∀ b, b ≠ a → t.vm.mem.read b = s.vm.mem.read b) ∧ (∀ j, readReg t j = readReg s j) ∧
      t = { s with vm := { s.vm with mem := t.vm.mem } }

/-- R150: POPCNT completes when its source and the address its register holds are inside memory: that word holds the
count of the source word read before the write; no register and no other word changes. -/
def Obligations.PopcntStoresTheCount : Prop :=
  ∀ (s : State) (d m a : Nat), s.vm.mem.wf → m < s.params.memWords → registerIndirect s d = .ok a →
    a < s.params.memWords →
    ∃ t, exec (.popcnt d m) s = .next t ∧ (t.vm.mem.read a).toNat = popcount (s.vm.mem.read m) ∧
      (∀ b, b ≠ a → t.vm.mem.read b = s.vm.mem.read b) ∧ (∀ j, readReg t j = readReg s j) ∧
      t = { s with vm := { s.vm with mem := t.vm.mem } }

/-- R8, R11: LOAD takes `AddressOutOfBounds` when its destination names no register, and nothing is written. -/
def Obligations.LoadFaultsOutsideTheRegisterFile : Prop :=
  ∀ (s : State) (d c : Nat), 8 ≤ d →
    exec (.load d c) s = .next (raiseRun .addressOutOfBounds s.vm.latches.ibase s)

/-- R63, R141, R166: READ takes `AddressOutOfBounds` when a field of it names no register, whatever the state, and when
the address its source holds is outside memory; nothing is written. -/
def Obligations.ReadFaultsOutOfBounds : Prop :=
  ∀ (s : State) (r d : Nat),
    (8 ≤ r ∨ 8 ≤ d → exec (.read r d) s = .next (raiseRun .addressOutOfBounds s.vm.latches.ibase s)) ∧
    ∀ a, registerIndirect s r = .ok a → s.params.memWords ≤ a →
      exec (.read r d) s = .next (raiseRun .addressOutOfBounds s.vm.latches.ibase s)

/-- R142, R166: WRITE takes `AddressOutOfBounds` when a field of it names no register and when the address it stores to is
outside memory; nothing is written. -/
def Obligations.WriteFaultsOutOfBounds : Prop :=
  ∀ (s : State) (d r : Nat),
    (8 ≤ d ∨ 8 ≤ r → exec (.write d r) s = .next (raiseRun .addressOutOfBounds s.vm.latches.ibase s)) ∧
    ∀ a, registerIndirect s d = .ok a → s.params.memWords ≤ a →
      exec (.write d r) s = .next (raiseRun .addressOutOfBounds s.vm.latches.ibase s)

/-- R150, R166: POPCNT takes `AddressOutOfBounds` when its destination names no register, when its source is outside memory
and when the address it stores to is; nothing is written. -/
def Obligations.PopcntFaultsOutOfBounds : Prop :=
  ∀ (s : State) (d m : Nat),
    (8 ≤ d ∨ s.params.memWords ≤ m →
      exec (.popcnt d m) s = .next (raiseRun .addressOutOfBounds s.vm.latches.ibase s)) ∧
    ∀ a, registerIndirect s d = .ok a → s.params.memWords ≤ a →
      exec (.popcnt d m) s = .next (raiseRun .addressOutOfBounds s.vm.latches.ibase s)

/-- R147, R14, R31, R126: whatever instruction is executed, from whatever state, it has a next state; the parameters, the
encoder, the host's calls, the stream, the cursor, the range and the latches are unchanged, and the status record is too
unless `AddressOutOfBounds` is taken, which changes nothing else. -/
def Obligations.InstructionsTouchNoControlState : Prop :=
  ∀ (i : Instr) (s : State),
    ∃ t, exec i s = .next t ∧
      (t = { s with vm := { s.vm with x := t.vm.x, mem := t.vm.mem } } ∨
        t = raiseRun .addressOutOfBounds s.vm.latches.ibase s)

/-- R151: the population count is the sum of the 32 bits, at most 32, kept whole by the zero-extension, with the values and
the laws the rule lists. -/
def Obligations.PopcountCountsTheBits : Prop :=
  (∀ v : Word, popcount v = ((List.range 32).map (fun i => (v.toNat >>> i) % 2)).sum ∧ popcount v ≤ 32) ∧
  (∀ a b : Word, popcount (a ||| b) + popcount (a &&& b) = popcount a + popcount b) ∧
  (∀ v : Word, popcount v = 0 ↔ v = 0) ∧
  (∀ v : Word, popcount (BitVec.ofNat 32 (popcount v)) ≤ 5) ∧
  (∀ v : Word, popcount v < 2 ^ 6 ∧ (BitVec.ofNat 32 (popcount v)).toNat = popcount v) ∧
  popcount 632 = 5 ∧
  (∀ k, k < 32 → popcount (BitVec.ofNat 32 (2 ^ k)) = 1) ∧
  ∀ k, k ≤ 32 → popcount (BitVec.ofNat 32 (2 ^ k - 1)) = k

/-! ## The run (42_decoder.md, 70_reset_and_hazards.md) -/

/-- R121, R137: a step of a run in progress that decodes an instruction is its execution on the state with the cursor and
the latches the decode left. -/
def Obligations.StepRunsTheDecodedInstruction : Prop :=
  ∀ (s : State) (i : Instr) (l : Latches) (p : Nat), s.vm.vstate = .run → s.vm.pc < lenBits s.vm.ibuf →
    decodeOne s.vm.ibuf s.vm.pc s.vm.latches = { latches := l, pc := p, result := .ok i } →
    step s = exec i { s with vm := { s.vm with pc := p, latches := l } }

/-- R59, R14, R140 to R142, R150: where the bytes at the cursor are the encoding of a well-formed instruction, the step
executes it with the cursor past its total length, its operands and its own start in the latches. -/
def Obligations.StepRunsTheEncodedInstruction : Prop :=
  ∀ (s : State) (i : Instr) (before after : List Byte), s.vm.vstate = .run → i.WellFormed →
    s.vm.ibuf = before ++ encode i ++ after → s.vm.pc = 8 * before.length →
    ∃ a b, i.operands = [a, b] ∧
      step s = exec i { s with vm := { s.vm with
        pc := s.vm.pc + i.row.total
        latches := { op := some i.row.code, row := some i.mnemonic, f0 := some (BitVec.ofNat 32 a)
                     f1 := some (BitVec.ofNat 32 b), rsv := some 0, ibase := some s.vm.pc } } }

/-- R14, R146: a step of a run that takes no condition and does not end it has decoded a well-formed instruction of the
stream and advanced the cursor by exactly its length, which is at least 16 bits. -/
def Obligations.CursorAdvancesByTheInstructionLength : Prop :=
  ∀ (s t : State), s.vm.vstate = .run → step s = .next t → t.vm.vstate = .run →
    ∃ i l, decodeOne s.vm.ibuf s.vm.pc s.vm.latches = { latches := l, pc := t.vm.pc, result := .ok i } ∧
      i.WellFormed ∧ t.vm.pc = s.vm.pc + i.row.total ∧ 16 ≤ i.row.total ∧ t.vm.pc ≤ lenBits s.vm.ibuf

/-- R130: an unassigned opcode at the cursor faults with `UnknownOpcode` at its own offset, with nothing read past the
seven bits and neither registers nor memory changed. That the cursor then stands seven bits on is the model's choice (log
entry 11, DEDUCED: R171 says only that it lies between `IBASE` and the end of the instruction). -/
def Obligations.UnassignedOpcodeFaults : Prop :=
  ∀ s : State, s.vm.vstate = .run → s.vm.pc + 7 ≤ lenBits s.vm.ibuf →
    bitsAt s.vm.ibuf s.vm.pc 7 ∉ [10, 18, 39, 54] →
    ∃ t, step s = .next t ∧ t.vm.vstate = .fault ∧ t.vm.pc = s.vm.pc + 7 ∧ t.vm.x = s.vm.x ∧ t.vm.mem = s.vm.mem ∧
      runResult t = some (.fault .unknownOpcode s.vm.pc)

/-- R134: a nonzero reserved tail faults with `MalformedInstruction`, with neither registers nor memory changed, whatever
the operands. -/
def Obligations.NonzeroTailFaults : Prop :=
  ∀ (s : State) (m : Mnemonic), s.vm.vstate = .run → s.vm.pc + m.row.total ≤ lenBits s.vm.ibuf →
    bitsAt s.vm.ibuf s.vm.pc 7 = m.row.code.toNat →
    bitsAt s.vm.ibuf (s.vm.pc + m.row.total - m.row.resv) m.row.resv ≠ 0 →
    ∃ t, step s = .next t ∧ t.vm.vstate = .fault ∧ t.vm.x = s.vm.x ∧ t.vm.mem = s.vm.mem ∧
      runResult t = some (.fault .malformedInstruction s.vm.pc)

/-- R124: a stream that ends inside the opcode, or inside an instruction whose opcode is assigned, faults with
`MalformedInstruction`. -/
def Obligations.TruncatedInstructionFaults : Prop :=
  ∀ s : State, s.vm.vstate = .run → s.vm.pc < lenBits s.vm.ibuf →
    (lenBits s.vm.ibuf < s.vm.pc + 7 ∨
      ∃ m : Mnemonic, s.vm.pc + 7 ≤ lenBits s.vm.ibuf ∧ bitsAt s.vm.ibuf s.vm.pc 7 = m.row.code.toNat ∧
        lenBits s.vm.ibuf < s.vm.pc + m.row.total) →
    ∃ t, step s = .next t ∧ t.vm.vstate = .fault ∧ t.vm.x = s.vm.x ∧ t.vm.mem = s.vm.mem ∧
      runResult t = some (.fault .malformedInstruction s.vm.pc)

/-- R171, R170: a step of a run that enters `FAULT` has changed neither registers nor memory and has recorded one of the
three conditions and the offset of the instruction it was about. -/
def Obligations.FaultsArePrecise : Prop :=
  ∀ (s t : State), s.vm.vstate = .run → step s = .next t → t.vm.vstate = .fault →
    t.vm.x = s.vm.x ∧ t.vm.mem = s.vm.mem ∧ t.vm.faultBit = some s.vm.pc ∧
    ∃ c, t.vm.faultCond = some c ∧ runCondition c = true

/-- R127: a run in progress ends normally exactly when the cursor stands at the end of the buffer, and then nothing but
its status changes. -/
def Obligations.RunEndsExactlyAtTheBufferEnd : Prop :=
  ∀ s : State, s.vm.vstate = .run → s.vm.pc ≤ lenBits s.vm.ibuf →
    (s.vm.pc = lenBits s.vm.ibuf →
      step s = .next { s with vm := { s.vm with vstate := .done, dstate := .done } }) ∧
    ∀ t, step s = .next t → t.vm.vstate = .done → s.vm.pc = lenBits s.vm.ibuf

/-- R125, R191, R172 (1): taking a run call resets the decoder/VM, whatever an earlier run left, and admits the run exactly
when `start <= end <= M`; otherwise, whatever the buffer, it faults with `AddressOutOfBounds` at offset 0 before anything is
decoded. The model's choices in it: the waiting call (log entry 2, DESIGN CHOICE) and the premise that a buffer with a legal
range has an accepted length (log entry 3, DESIGN CHOICE). -/
def Obligations.RunStartsFromResetAndChecksItsRange : Prop :=
  ∀ (s : State) (buf : List Byte) (a b : Nat) (rest : List HostCall), s.vm.vstate ≠ .run →
    s.calls = .run buf a b :: rest →
    (a ≤ b ∧ b ≤ s.params.memWords → acceptsLength s.params buf = true) →
    ∃ t, step s = .next t ∧ t.params = s.params ∧ t.enc = s.enc ∧ t.calls = rest ∧
      (∀ i, i < 8 → readReg t i = .ok 0) ∧ (∀ n, t.vm.mem.read n = 0) ∧ t.vm.pc = 0 ∧ t.vm.ibuf = buf ∧
      t.vm.latches = Latches.empty ∧ t.vm.snapStart = some a ∧ t.vm.snapEnd = some b ∧
      (a ≤ b ∧ b ≤ s.params.memWords →
        t.vm.vstate = .run ∧ t.vm.dstate = .fetch ∧ t.vm.faultCond = none ∧ t.vm.faultBit = none) ∧
      (¬(a ≤ b ∧ b ≤ s.params.memWords) → t.vm.vstate = .fault ∧ runResult t = some (.fault .addressOutOfBounds 0))

/-- R18, R174, R100, R104, R10: between passes only a host call acts: without one the state is held, and an assemble call,
over text or over records, runs the whole assembly pass and leaves the decoder/VM untouched. The model's choices in it: that
calls stand in a list (log entry 2), that there is a call over records at all (log entry 7, DESIGN CHOICE: R202 lists the
call over text only), and that a pass is one step (log entry 9, DESIGN CHOICE). -/
def Obligations.BetweenPassesOnlyAHostCallActs : Prop :=
  ∀ s : State, s.vm.vstate ≠ .run →
    (s.calls = [] → step s = .next s) ∧
    (∀ text rest, s.calls = .assemble text :: rest → step s = .next { s with enc := assemblePass text, calls := rest }) ∧
    ∀ rs rest, s.calls = .assembleRecords rs :: rest → step s = .next { s with enc := recordPass rs, calls := rest }

/-- R202 (c), R31, R17: while a run is in progress no host call is taken and none can influence it: the calls, the
parameters, the encoder, the stream and the range are unchanged, and with other calls and another encoder the step does
the same. -/
def Obligations.NothingReachesARunningPass : Prop :=
  ∀ (s : State) (calls : List HostCall) (enc : Encoder), s.vm.vstate = .run →
    ∃ t, step s = .next t ∧ t.calls = s.calls ∧ t.params = s.params ∧ t.enc = s.enc ∧ t.vm.ibuf = s.vm.ibuf ∧
      t.vm.snapStart = s.vm.snapStart ∧ t.vm.snapEnd = s.vm.snapEnd ∧
      step { s with calls := calls, enc := enc } = .next { t with calls := calls, enc := enc }

/-- The model's one stop (log entry 3, DESIGN CHOICE: R5 says what `LMAX` is and not what a longer buffer does): a step
stops only at the admission of a run with a legal range and a buffer longer than a finite `LMAX`, and never refuses an
instruction. -/
def Obligations.OnlyAnOverlongBufferStops : Prop :=
  ∀ s : State,
    (∀ r, step s ≠ .refused r) ∧
    ((∃ f, step s = .fault f) ↔
      s.vm.vstate ≠ .run ∧
        ∃ buf a b rest n, s.calls = .run buf a b :: rest ∧ (a ≤ b ∧ b ≤ s.params.memWords) ∧ s.params.lmax = some n ∧
          n < buf.length)

/-- R146, R200: every run ends: within one step for the admission, one for each two bytes of the buffer and one for the
end, the host has its result. The premise that a buffer with a legal range has an accepted length is log entry 3's (DESIGN
CHOICE), and that the admission is a step that takes a waiting call is log entry 2's (DESIGN CHOICE). -/
def Obligations.EveryRunEndsWithAResult : Prop :=
  ∀ (s : State) (buf : List Byte) (a b : Nat), s.vm.vstate ≠ .run →
    (a ≤ b ∧ b ≤ s.params.memWords → acceptsLength s.params buf = true) →
    ∃ r, run s buf a b = some r

/-- R135, R120, R47: the result of a run is a function of the buffer, the range and the parameters: nothing an earlier
pass left in the machine can be learned from it. -/
def Obligations.RunResultDependsOnlyOnItsInputs : Prop :=
  ∀ (s u : State) (buf : List Byte) (a b : Nat), s.vm.vstate ≠ .run → u.vm.vstate ≠ .run → s.params = u.params →
    run s buf a b = run u buf a b

/-- R128: the empty buffer with a legal range completes at once with an all-zero snapshot. -/
def Obligations.EmptyBufferGivesTheZeroSnapshot : Prop :=
  ∀ (s : State) (a b : Nat), s.vm.vstate ≠ .run → a ≤ b → b ≤ s.params.memWords →
    run s [] a b =
      some (.ok ((List.range (b - a)).map (fun k => (a + k, 0)))
        (if s.params.exposeRegs then some (List.replicate 8 0) else none))

/-- R131, R132, R133: the result of a completed run is the range's words in ascending address order, and the registers
when they are exposed; a run that has not completed gives no snapshot and no registers. -/
def Obligations.OnlyACompletedRunGivesTheSnapshot : Prop :=
  (∀ (s : State) (snap : List (Nat × Nat)) (regs : Option (List Nat)),
    runResult s = some (.ok snap regs) → s.vm.vstate = .done) ∧
  ∀ (s : State) (a b : Nat), s.vm.vstate = .done → s.vm.snapStart = some a → s.vm.snapEnd = some b →
    ∃ snap regs, runResult s = some (.ok snap regs) ∧
      snap = (List.range (b - a)).map (fun k => (a + k, (s.vm.mem.read (a + k)).toNat)) ∧
      (s.params.exposeRegs = false → regs = none) ∧
      (s.params.exposeRegs = true →
        ∃ xs, regs = some xs ∧ xs.length = 8 ∧ ∀ i v, readReg s i = .ok v → xs[i]? = some v.toNat)

/-- R122, R137: one step of a run is one pass through the decode FSM: at most six transitions from `D_FETCH`, none of
which but the last changes registers, memory or status, end in the same state at `D_FETCH`, `D_DONE` or `D_FAULT`. The
count of transitions and the state they end in rest on the model's choice that entering `D_DONE` or `D_FAULT` performs that
state's action at once (log entry 8, DESIGN CHOICE). -/
def Obligations.StepIsOnePassThroughTheFsm : Prop :=
  ∀ s : State, s.vm.vstate = .run → s.vm.dstate = .fetch →
    ∃ n t, 1 ≤ n ∧ n ≤ 6 ∧ step s = .next t ∧ fsmSteps n s = .next t ∧
      (t.vm.dstate = .fetch ∨ t.vm.dstate = .done ∨ t.vm.dstate = .fault) ∧
      ∀ k, 1 ≤ k → k < n →
        ∃ u, fsmSteps k s = .next u ∧ u.vm.x = s.vm.x ∧ u.vm.mem = s.vm.mem ∧ u.vm.vstate = .run ∧
          u.vm.dstate ≠ .fetch ∧ u.vm.dstate ≠ .done ∧ u.vm.dstate ≠ .fault

/-- R28, R190 to R192: the state after reset, item by item. -/
def Obligations.ResetLeavesTheStatedValues : Prop :=
  (∀ i, i < 8 → readReg State.reset i = .ok 0) ∧ (∀ a, State.reset.vm.mem.read a = 0) ∧ State.reset.vm.pc = 0 ∧
  State.reset.vm.snapStart = none ∧ State.reset.vm.snapEnd = none ∧ State.reset.vm.vstate = .idle ∧
  State.reset.vm.faultCond = none ∧ State.reset.vm.faultBit = none ∧ State.reset.vm.dstate = .idle ∧
  State.reset.vm.latches = { op := none, row := none, f0 := none, f1 := none, rsv := none, ibase := none } ∧
  State.reset.enc.writer = { wbuf := [], wbits := 0 } ∧ State.reset.enc.log = [] ∧ State.reset.enc.estate = .opened ∧
  State.reset.enc.errCond = none ∧ State.reset.enc.errLine = none

/-- R5, R6 (e), R13, R14, R17, R18, R24, R82, R122, R127, R170: every step keeps the machine safe, whatever the host has asked
for. Two clauses of `Safe` are the model's choice: the canonical form of memory (log entry 6, DESIGN CHOICE) and that a
failed encoder has an empty writer and log (log entry 14, DEDUCED). -/
def Obligations.EveryStepKeepsTheMachineSafe : Prop :=
  ∀ s t : State, Safe s → step s = .next t → Safe t

/-- The machine is safe after reset (with the default parameters of log entry 1). -/
def Obligations.ResetIsSafe : Prop := Safe State.reset
end

