-- ==== Sys2Proof/Laws/BitStream.lean ====
section
/-! SUPPORT. The bits of a stream: what a byte sequence, a read and the writing of one bit are, bit by bit. -/

namespace Sys2Proof

/-- Bit `k` of a byte sequence read as one number is its stream bit `k`. -/
theorem testBit_natOfBytes (buf : List Byte) (k : Nat) : (natOfBytes buf).testBit k = streamBit buf k := by
  induction buf generalizing k with
  | nil => simp [natOfBytes, streamBit]
  | cons b bs ih =>
    have hb : b.toNat < 2 ^ 8 := b.isLt
    have e : natOfBytes (b :: bs) = 2 ^ 8 * natOfBytes bs + b.toNat := by simp only [natOfBytes]; omega
    rw [e, Nat.testBit_two_pow_mul_add _ hb]
    by_cases h : k < 8
    · rw [if_pos h]
      simp [streamBit, Nat.div_eq_of_lt h, Nat.mod_eq_of_lt h, BitVec.getLsbD]
    · rw [if_neg h, ih]
      have h1 : k / 8 = (k - 8) / 8 + 1 := by omega
      have h2 : k % 8 = (k - 8) % 8 := by omega
      simp [streamBit, h1, h2]

/-- Bit `i` of a field is the stream bit `i` places after its start. -/
theorem testBit_bitsAt (buf : List Byte) (pc n i : Nat) :
    (bitsAt buf pc n).testBit i = (decide (i < n) && streamBit buf (pc + i)) := by
  induction n generalizing pc i with
  | zero => simp [bitsAt]
  | succ n ih =>
    have hb : (streamBit buf pc).toNat < 2 ^ 1 := by cases streamBit buf pc <;> decide
    have e : bitsAt buf pc (n + 1) = 2 ^ 1 * bitsAt buf (pc + 1) n + (streamBit buf pc).toNat := by
      simp only [bitsAt]; omega
    rw [e, Nat.testBit_two_pow_mul_add _ hb]
    cases i with
    | zero => cases streamBit buf pc <;> simp
    | succ i => simp [ih, Nat.add_assoc, Nat.add_comm 1 i]

theorem bitsAt_lt (buf : List Byte) (pc n : Nat) : bitsAt buf pc n < 2 ^ n := by
  induction n generalizing pc with
  | zero => simp [bitsAt]
  | succ n ih =>
    have := ih (pc + 1)
    have hb : (streamBit buf pc).toNat ≤ 1 := by cases streamBit buf pc <;> decide
    simp only [bitsAt, Nat.pow_succ]
    omega

/-- A read gives the bits and moves the cursor past them, or there are too few bits. -/
theorem readBits_cases (buf : List Byte) (pc n : Nat) :
    (pc + n ≤ lenBits buf ∧ readBits buf pc n = .ok (bitsAt buf pc n, pc + n)) ∨
      (lenBits buf < pc + n ∧ readBits buf pc n = .error .outOfData) := by
  by_cases h : pc + n ≤ lenBits buf
  · exact .inl ⟨h, if_pos h⟩
  · exact .inr ⟨Nat.lt_of_not_le h, if_neg h⟩

/-- A stream bit past the end of the buffer is zero. -/
theorem streamBit_of_lenBits_le (buf : List Byte) (k : Nat) (h : lenBits buf ≤ k) : streamBit buf k = false := by
  have : buf.length ≤ k / 8 := by unfold lenBits at h; omega
  simp [streamBit, List.getD_eq_getElem?_getD, List.getElem?_eq_none this]

theorem length_bytesOfNat (n w : Nat) : (bytesOfNat n w).length = n := by
  induction n generalizing w with
  | zero => rfl
  | succ n ih => simp [bytesOfNat, ih]

@[simp] theorem Writer.writeBit_wbits (w : Writer) (b : Bool) : (w.writeBit b).wbits = w.wbits + 1 := rfl

theorem Writer.write_wbits (w : Writer) (v n : Nat) : (w.write v n).wbits = w.wbits + n := by
  induction n generalizing w v with
  | zero => rfl
  | succ n ih => simp only [Writer.write, ih, Writer.writeBit_wbits]; omega

/-- Writing one bit into a safe writer: the new bit stands at `wbits`, every other bit is as before. -/
theorem Writer.streamBit_writeBit (w : Writer) (b : Bool) (h : Machine.WriterSafe w) (k : Nat) :
    streamBit (w.writeBit b).wbuf k = if k = w.wbits then b else streamBit w.wbuf k := by
  obtain ⟨hl, hz⟩ := h
  have key : ∀ (buf : List Byte), w.wbits / 8 < buf.length → (∀ j, streamBit buf j = streamBit w.wbuf j) →
      streamBit (buf.modify (w.wbits / 8) (fun x => x ||| (BitVec.ofNat 8 b.toNat <<< (w.wbits % 8)))) k =
        if k = w.wbits then b else streamBit w.wbuf k := by
    intro buf hlen hsame
    have hz' := hz w.wbits le_rfl
    rw [← hsame] at hz'
    rw [← hsame k]
    unfold streamBit at hz' ⊢
    simp only [List.getD_eq_getElem?_getD, List.getElem?_modify] at hz' ⊢
    by_cases hk : w.wbits / 8 = k / 8
    · have hk' : k / 8 < buf.length := hk ▸ hlen
      have h8 : k % 8 < 8 := Nat.mod_lt _ (by decide)
      rw [hk, List.getElem?_eq_getElem hk', Option.getD_some] at hz'
      simp only [hk, if_true, List.getElem?_eq_getElem hk', Option.map_eq_map, Option.map_some, Option.getD_some,
        BitVec.getLsbD_or, BitVec.getLsbD_shiftLeft, h8, decide_true, Bool.true_and]
      by_cases e : k = w.wbits
      · subst e
        rw [hz', if_pos rfl]
        cases b <;> simp
      · rw [if_neg e]
        have hne : k % 8 ≠ w.wbits % 8 := fun h => e (by omega)
        cases b with
        | false => simp
        | true =>
          by_cases hlt : k % 8 < w.wbits % 8
          · simp [hlt]
          · have hj : k % 8 - w.wbits % 8 ≠ 0 := by omega
            simp [hj]
    · have e : k ≠ w.wbits := fun h => hk (by rw [h])
      simp [hk, e]
  by_cases h0 : w.wbits % 8 = 0
  · have e : (w.writeBit b).wbuf = (w.wbuf ++ [0]).modify (w.wbits / 8)
        (fun x => x ||| (BitVec.ofNat 8 b.toNat <<< (w.wbits % 8))) := by simp [Writer.writeBit, h0]
    rw [e]
    refine key _ (by simp [hl]; omega) fun j => ?_
    unfold streamBit
    simp only [List.getD_eq_getElem?_getD]
    by_cases hj : j / 8 < w.wbuf.length
    · rw [List.getElem?_append_left hj]
    · rw [List.getElem?_eq_none (Nat.le_of_not_lt hj)]
      by_cases hj' : j / 8 = w.wbuf.length
      · rw [hj']; simp
      · rw [List.getElem?_eq_none (by simp; omega)]
  · have e : (w.writeBit b).wbuf = w.wbuf.modify (w.wbits / 8)
        (fun x => x ||| (BitVec.ofNat 8 b.toNat <<< (w.wbits % 8))) := by simp [Writer.writeBit, h0]
    rw [e]
    exact key _ (by omega) fun _ => rfl

end Sys2Proof
end

