-- ==== Sys2Proof/Laws/Decode.lean ====
section
/-! SUPPORT. The descriptor by rows, and for the decoder, once, everything `decode_one` can answer. -/

namespace Sys2Proof

theorem readBits_ok {buf : List Byte} {pc n : Nat} (h : pc + n ≤ lenBits buf) :
    readBits buf pc n = .ok (bitsAt buf pc n, pc + n) := if_pos h

theorem readBits_error {buf : List Byte} {pc n : Nat} (h : lenBits buf < pc + n) :
    readBits buf pc n = .error .outOfData := if_neg (Nat.not_le.mpr h)

@[simp] theorem Mnemonic.row_name (m : Mnemonic) : m.row.name = m := by cases m <;> rfl

theorem lookupRow_code (m : Mnemonic) : lookupRow m.row.code = some m.row := by cases m <;> rfl

theorem lookupRow_eq_some {c : BitVec 7} {r : Row} (h : lookupRow c = some r) :
    ∃ m, r = Mnemonic.row m ∧ c = (Mnemonic.row m).code := by
  have hm := List.mem_of_find?_eq_some h
  have hc := List.find?_some h
  simp only [beq_iff_eq] at hc
  simp only [descriptor, List.mem_cons, List.not_mem_nil, or_false] at hm
  rcases hm with rfl | rfl | rfl | rfl
  · exact ⟨.load, rfl, hc.symm⟩
  · exact ⟨.read, rfl, hc.symm⟩
  · exact ⟨.write, rfl, hc.symm⟩
  · exact ⟨.popcnt, rfl, hc.symm⟩

theorem Mnemonic.row_total (m : Mnemonic) :
    m.row.total = 7 + m.row.width 0 + m.row.width 1 + m.row.resv := by cases m <;> rfl

theorem Mnemonic.row_total_mod (m : Mnemonic) : m.row.total % 8 = 0 := by cases m <;> decide

theorem Mnemonic.row_total_ge (m : Mnemonic) : 16 ≤ m.row.total := by cases m <;> decide

theorem Mnemonic.row_fields_length (m : Mnemonic) : m.row.fields.length = 2 := by cases m <;> rfl

theorem Instr.eq_ofFields (i : Instr) : ∃ a b, i.operands = [a, b] ∧ i = Instr.ofFields i.mnemonic a b := by
  cases i <;> exact ⟨_, _, rfl, rfl⟩

@[simp] theorem Instr.ofFields_mnemonic (m : Mnemonic) (a b : Nat) : (Instr.ofFields m a b).mnemonic = m := by
  cases m <;> rfl

@[simp] theorem Instr.ofFields_operands (m : Mnemonic) (a b : Nat) : (Instr.ofFields m a b).operands = [a, b] := by
  cases m <;> rfl

theorem Instr.ofFields_wellFormed (m : Mnemonic) (a b : Nat) :
    (Instr.ofFields m a b).WellFormed ↔ a < 2 ^ m.row.width 0 ∧ b < 2 ^ m.row.width 1 := by
  cases m <;> simp [Instr.ofFields, Instr.WellFormed, Instr.wellFormed, Mnemonic.row, Row.width]

/-- The latches after a whole instruction of a row has been read. -/
def fullLatches (buf : List Byte) (pc : Nat) (m : Mnemonic) : Latches :=
  { op := some m.row.code, row := some m, f0 := some (BitVec.ofNat 32 (bitsAt buf (pc + 7) (m.row.width 0)))
    f1 := some (BitVec.ofNat 32 (bitsAt buf (pc + 7 + m.row.width 0) (m.row.width 1)))
    rsv := some (BitVec.ofNat 6 (bitsAt buf (pc + m.row.total - m.row.resv) m.row.resv)), ibase := some pc }

/-- The stream ends inside the opcode. -/
theorem decodeOne_of_no_opcode (buf : List Byte) (pc : Nat) (l : Latches) (h : lenBits buf < pc + 7) :
    decodeOne buf pc l = ⟨{ l with ibase := some pc }, pc, .error .malformedInstruction⟩ := by
  unfold decodeOne; rw [readBits_error h]

/-- The opcode selects no row. -/
theorem decodeOne_of_unassigned (buf : List Byte) (pc : Nat) (l : Latches) (h : pc + 7 ≤ lenBits buf)
    (hl : lookupRow (BitVec.ofNat 7 (bitsAt buf pc 7)) = none) :
    decodeOne buf pc l =
      ⟨{ l with ibase := some pc, op := some (BitVec.ofNat 7 (bitsAt buf pc 7)) }, pc + 7, .error .unknownOpcode⟩ := by
  unfold decodeOne; rw [readBits_ok h]; simp [hl]

/-- The whole instruction is there: it decodes exactly if its tail is zero. -/
theorem decodeOne_of_whole (buf : List Byte) (pc : Nat) (l : Latches) (m : Mnemonic)
    (hc : BitVec.ofNat 7 (bitsAt buf pc 7) = m.row.code) (hlen : pc + m.row.total ≤ lenBits buf) :
    decodeOne buf pc l =
      ⟨fullLatches buf pc m, pc + m.row.total,
        if bitsAt buf (pc + m.row.total - m.row.resv) m.row.resv = 0 then
          .ok (Instr.ofFields m (bitsAt buf (pc + 7) (m.row.width 0)) (bitsAt buf (pc + 7 + m.row.width 0) (m.row.width 1)))
        else .error .malformedInstruction⟩ := by
  cases m <;> simp only [Mnemonic.row] at hlen hc <;>
  · unfold decodeOne
    rw [readBits_ok (by simp only [Config.opcodeWidth]; omega)]
    simp only [Config.opcodeWidth, hc]
    simp only [show lookupRow 10 = some (Mnemonic.row .load) from rfl,
      show lookupRow 54 = some (Mnemonic.row .read) from rfl,
      show lookupRow 39 = some (Mnemonic.row .write) from rfl,
      show lookupRow 18 = some (Mnemonic.row .popcnt) from rfl]
    simp only [Mnemonic.row, decodeFields]
    rw [readBits_ok (by omega)]
    dsimp only
    rw [readBits_ok (by omega)]
    simp only [decodeTail]
    rw [readBits_ok (by omega)]
    simp [fullLatches, Latches.setField, Row.width, Mnemonic.row, Nat.add_assoc]

/-- The stream ends inside an instruction whose opcode is assigned. -/
theorem decodeOne_of_truncated (buf : List Byte) (pc : Nat) (l : Latches) (m : Mnemonic) (h7 : pc + 7 ≤ lenBits buf)
    (hc : BitVec.ofNat 7 (bitsAt buf pc 7) = m.row.code) (hlen : lenBits buf < pc + m.row.total) :
    (decodeOne buf pc l).result = .error .malformedInstruction ∧ (decodeOne buf pc l).latches.ibase = some pc ∧
      (decodeOne buf pc l).pc ≤ lenBits buf := by
  cases m <;> simp only [Mnemonic.row] at hlen hc <;>
  · unfold decodeOne
    rw [readBits_ok (by simp only [Config.opcodeWidth]; omega)]
    simp only [Config.opcodeWidth, hc]
    simp only [show lookupRow 10 = some (Mnemonic.row .load) from rfl,
      show lookupRow 54 = some (Mnemonic.row .read) from rfl,
      show lookupRow 39 = some (Mnemonic.row .write) from rfl,
      show lookupRow 18 = some (Mnemonic.row .popcnt) from rfl]
    simp only [Mnemonic.row, decodeFields]
    rcases readBits_cases buf (pc + 7) 3 with ⟨h1, e1⟩ | ⟨h1, e1⟩ <;>
    rcases readBits_cases buf (pc + 7) 32 with ⟨h2, e2⟩ | ⟨h2, e2⟩ <;>
    rcases readBits_cases buf (pc + 7 + 3) 3 with ⟨h3, e3⟩ | ⟨h3, e3⟩ <;>
    rcases readBits_cases buf (pc + 7 + 3) 24 with ⟨h4, e4⟩ | ⟨h4, e4⟩ <;>
    rcases readBits_cases buf (pc + 7 + 3) 32 with ⟨h5, e5⟩ | ⟨h5, e5⟩ <;>
    rcases readBits_cases buf (pc + 7 + 32) 3 with ⟨h6, e6⟩ | ⟨h6, e6⟩ <;> first | omega | skip
    all_goals simp only [e1, e2, e3, e4, e5, e6, decodeTail]
    all_goals try (rw [readBits_error (by omega)])
    all_goals simp [Latches.setField]
    all_goals omega

/-- What decodes: a whole instruction of some row, with a zero tail. -/
theorem decodeOne_eq_ok {buf : List Byte} {pc : Nat} {l : Latches} {i : Instr}
    (h : (decodeOne buf pc l).result = .ok i) :
    ∃ m, pc + m.row.total ≤ lenBits buf ∧ bitsAt buf pc 7 = m.row.code.toNat ∧
      bitsAt buf (pc + m.row.total - m.row.resv) m.row.resv = 0 ∧
      i = Instr.ofFields m (bitsAt buf (pc + 7) (m.row.width 0)) (bitsAt buf (pc + 7 + m.row.width 0) (m.row.width 1)) ∧
      (decodeOne buf pc l).pc = pc + m.row.total ∧ (decodeOne buf pc l).latches = fullLatches buf pc m := by
  by_cases h7 : lenBits buf < pc + 7
  · rw [decodeOne_of_no_opcode _ _ _ h7] at h; cases h
  cases hl : lookupRow (BitVec.ofNat 7 (bitsAt buf pc 7)) with
  | none => rw [decodeOne_of_unassigned _ _ _ (by omega) hl] at h; cases h
  | some r =>
    obtain ⟨m, rfl, hc⟩ := lookupRow_eq_some hl
    by_cases ht : lenBits buf < pc + m.row.total
    · rw [(decodeOne_of_truncated buf pc l m (by omega) hc ht).1] at h; cases h
    · have e := decodeOne_of_whole buf pc l m hc (by omega)
      rw [e] at h ⊢
      simp only at h
      split_ifs at h with h0
      cases h
      refine ⟨m, by omega, ?_, h0, rfl, rfl, rfl⟩
      rw [← hc, BitVec.toNat_ofNat, Nat.mod_eq_of_lt (bitsAt_lt buf pc 7)]

/-- What does not decode: one of two conditions, the cursor inside the buffer, `IBASE` at the start. -/
theorem decodeOne_eq_error {buf : List Byte} {pc : Nat} {l : Latches} {c : Condition} (hpc : pc ≤ lenBits buf)
    (h : (decodeOne buf pc l).result = .error c) :
    (c = .unknownOpcode ∨ c = .malformedInstruction) ∧ (decodeOne buf pc l).pc ≤ lenBits buf ∧
      (decodeOne buf pc l).latches.ibase = some pc := by
  by_cases h7 : lenBits buf < pc + 7
  · rw [decodeOne_of_no_opcode _ _ _ h7] at h ⊢; cases h; exact ⟨.inr rfl, hpc, rfl⟩
  cases hl : lookupRow (BitVec.ofNat 7 (bitsAt buf pc 7)) with
  | none =>
    rw [decodeOne_of_unassigned _ _ _ (by omega) hl] at h ⊢; cases h; exact ⟨.inl rfl, Nat.not_lt.mp h7, rfl⟩
  | some r =>
    obtain ⟨m, rfl, hc⟩ := lookupRow_eq_some hl
    by_cases ht : lenBits buf < pc + m.row.total
    · obtain ⟨t1, t2, t3⟩ := decodeOne_of_truncated buf pc l m (by omega) hc ht
      rw [t1] at h; cases h; exact ⟨.inr rfl, t3, t2⟩
    · rw [decodeOne_of_whole buf pc l m hc (by omega)] at h ⊢
      simp only at h ⊢
      split_ifs at h
      cases h
      exact ⟨.inr rfl, Nat.not_lt.mp ht, rfl⟩

/-- The packer's writes for the two operands of a row. -/
theorem pack_eq_writeAll (w : Writer) (m : Mnemonic) (a b : Nat) :
    pack w m.row [a, b] =
      w.writeAll [(m.row.code.toNat, 7), (a, m.row.width 0), (b, m.row.width 1), (0, m.row.resv)] := by
  cases m <;> rfl

end Sys2Proof
end

