-- ==== Sys2Proof/Laws/Assembler.lean ====
section
/-! SUPPORT. Everything the encoder can do with one record and with one line. -/

namespace Sys2Proof.Machine

theorem resolve_eq_some {t : List Char} {r : Row} (h : resolve t = some r) :
    ∃ m, r = Mnemonic.row m ∧ t.map foldUpper = spelling m := by
  have hm := List.mem_of_find?_eq_some h
  have hc := List.find?_some h
  simp only [beq_iff_eq] at hc
  simp only [descriptor, List.mem_cons, List.not_mem_nil, or_false] at hm
  rcases hm with rfl | rfl | rfl | rfl
  · exact ⟨.load, rfl, hc.symm⟩
  · exact ⟨.read, rfl, hc.symm⟩
  · exact ⟨.write, rfl, hc.symm⟩
  · exact ⟨.popcnt, rfl, hc.symm⟩

theorem operandsFit_two (m : Mnemonic) (a b : Nat) :
    operandsFit m.row.fields [a, b] = true ↔ a < 2 ^ m.row.width 0 ∧ b < 2 ^ m.row.width 1 := by
  cases m <;> simp [operandsFit, Mnemonic.row, Row.width]

/-- A record has the wrong arity, or an operand too wide, or is packed and logged. -/
theorem encodeRecord_cases (m : Mnemonic) (ops : List Nat) (e : Encoder) :
    (ops.length ≠ 2 ∧ encodeRecord m.row ops e = .error .arityError) ∨
    (∃ a b, ops = [a, b] ∧ (2 ^ m.row.width 0 ≤ a ∨ 2 ^ m.row.width 1 ≤ b) ∧
      encodeRecord m.row ops e = .error .operandOverflow) ∨
    (∃ a b, ops = [a, b] ∧ a < 2 ^ m.row.width 0 ∧ b < 2 ^ m.row.width 1 ∧
      encodeRecord m.row ops e =
        .ok { e with writer := pack e.writer m.row [a, b], log := e.log ++ [logEntry m.row [a, b]] }) := by
  by_cases h : ops.length = 2
  · obtain ⟨a, b, rfl⟩ := List.length_eq_two.mp h
    right
    unfold encodeRecord
    rw [Mnemonic.row_fields_length, if_neg (by simp)]
    by_cases hf : operandsFit m.row.fields [a, b] = true
    · have := (operandsFit_two m a b).mp hf
      exact .inr ⟨a, b, rfl, this.1, this.2, if_pos hf⟩
    · have : ¬(a < 2 ^ m.row.width 0 ∧ b < 2 ^ m.row.width 1) := fun h => hf ((operandsFit_two m a b).mpr h)
      exact .inl ⟨a, b, rfl, by omega, if_neg hf⟩
  · exact .inl ⟨h, by unfold encodeRecord; rw [Mnemonic.row_fields_length, if_pos h]⟩

/-- A line is skipped, or packs one well-formed instruction, or raises one of the four conditions. -/
theorem assembleLine_cases (line : List Char) (e : Encoder) :
    assembleLine line e = .ok e ∨
    (∃ m a b, a < 2 ^ (Mnemonic.row m).width 0 ∧ b < 2 ^ (Mnemonic.row m).width 1 ∧
      assembleLine line e =
        .ok { e with writer := pack e.writer (Mnemonic.row m) [a, b], log := e.log ++ [logEntry (Mnemonic.row m) [a, b]] }) ∨
    ∃ c, asmCondition c = true ∧ assembleLine line e = .error c := by
  unfold assembleLine
  cases tokens line with
  | nil => exact .inl rfl
  | cons t ts =>
    simp only
    split_ifs
    · exact .inl rfl
    right
    unfold assembleInstruction
    cases hr : resolve t with
    | none => exact .inr ⟨_, rfl, rfl⟩
    | some r =>
      obtain ⟨m, rfl, _⟩ := resolve_eq_some hr
      simp only
      split_ifs with hl
      · exact .inr ⟨_, rfl, rfl⟩
      · cases hp : parseOperands ts with
        | none => exact .inr ⟨_, rfl, rfl⟩
        | some ops =>
          rcases encodeRecord_cases m ops e with ⟨_, h⟩ | ⟨a, b, _, _, h⟩ | ⟨a, b, _, ha, hb, h⟩
          · exact .inr ⟨_, rfl, h⟩
          · exact .inr ⟨_, rfl, h⟩
          · exact .inl ⟨m, a, b, ha, hb, h⟩

end Sys2Proof.Machine
end

