-- ==== Sys2Proof/Laws/Memory.lean ====
section
/-! SUPPORT. What reading and writing a memory word does, in any memory and in one of the canonical form. -/

namespace Sys2Proof.Machine

/-- A word no entry lists reads as zero. -/
theorem Memory.read_of_not_listed (m : Memory) (a : Nat) (h : ∀ c ∈ m, c.1 ≠ a) : m.read a = 0 := by
  induction m with
  | nil => rfl
  | cons c m ih =>
    obtain ⟨b, w⟩ := c
    have hb : a ≠ b := fun e => h (b, w) (by simp) e.symm
    simp only [Memory.read, if_neg hb]
    exact ih fun c hc => h c (by simp [hc])

/-- A write leaves every other word alone, whatever the form of the memory. -/
theorem Memory.read_write_of_ne (m : Memory) (a b : Nat) (v : Word) (h : b ≠ a) : (m.write a v).read b = m.read b := by
  induction m with
  | nil => by_cases hv : v = Memory.unwritten <;> simp [Memory.write, Memory.read, hv, h]
  | cons c m ih =>
    obtain ⟨k, w⟩ := c
    simp only [Memory.write]
    split_ifs with h1 h2 h3 h4 <;> simp_all [Memory.read]

/-- Every entry after a write is an old entry at another address or the word written. -/
theorem Memory.mem_write (m : Memory) (a : Nat) (v : Word) (c : Nat × Word) (h : c ∈ m.write a v) :
    c ∈ m ∨ (c = (a, v) ∧ v ≠ 0) := by
  induction m with
  | nil =>
    by_cases hv : v = Memory.unwritten
    · simp [Memory.write, hv] at h
    · simp only [Memory.write, if_neg hv, List.mem_singleton] at h
      exact .inr ⟨h, hv⟩
  | cons k m ih =>
    obtain ⟨b, w⟩ := k
    simp only [Memory.write] at h
    split_ifs at h with h1 hv h2 hv <;> simp only [List.mem_cons] at h ⊢
    · exact .inl h
    · rcases h with rfl | h
      · exact .inr ⟨rfl, hv⟩
      · exact .inl h
    · exact .inl (.inr h)
    · rcases h with rfl | h
      · exact .inr ⟨rfl, hv⟩
      · exact .inl (.inr h)
    · rcases h with rfl | h
      · exact .inl (.inl rfl)
      · rcases ih h with h | h
        · exact .inl (.inr h)
        · exact .inr h

/-- A write keeps the canonical form. -/
theorem Memory.wf_write (m : Memory) (a : Nat) (v : Word) (h : m.wf) : (m.write a v).wf := by
  refine ⟨?_, fun c hc => ?_⟩
  · obtain ⟨hs, -⟩ := h
    induction m with
    | nil => by_cases hv : v = Memory.unwritten <;> simp [Memory.write, hv]
    | cons k m ih =>
      obtain ⟨b, w⟩ := k
      have ht := List.pairwise_cons.mp hs
      simp only [Memory.write]
      split_ifs with h1 hv h2 hv
      · exact hs
      · refine List.pairwise_cons.mpr ⟨fun c hc => ?_, hs⟩
        rcases List.mem_cons.mp hc with rfl | hc
        · exact h1
        · exact Nat.lt_trans h1 (ht.1 c hc)
      · exact ht.2
      · exact List.pairwise_cons.mpr ⟨fun c hc => h2 ▸ ht.1 c hc, ht.2⟩
      · refine List.pairwise_cons.mpr ⟨fun c hc => ?_, ih ht.2⟩
        rcases Memory.mem_write m a v c hc with hc | ⟨rfl, -⟩
        · exact ht.1 c hc
        · have : (b, w).1 < a := by simp only; omega
          exact this
  · rcases Memory.mem_write m a v c hc with hc | ⟨rfl, hv⟩
    · exact h.2 c hc
    · exact hv

/-- The empty memory, which reset leaves, has the canonical form. -/
theorem Memory.wf_nil : Memory.wf [] := ⟨List.Pairwise.nil, by simp⟩

/-- Every memory operation keeps the canonical form. -/
theorem memWrite_wf (s t : State) (a : Nat) (v : Word) (h : s.vm.mem.wf) (e : memWrite s a v = .ok t) : t.vm.mem.wf := by
  unfold memWrite at e
  split_ifs at e
  cases e
  exact Memory.wf_write _ _ _ h

end Sys2Proof.Machine
end

