-- ==== Sys2Proof/Laws/State.lean ====
section
/-! SUPPORT. One lemma per field per named update of the state, true by definition. -/

namespace Sys2Proof.Machine

section SetRegs
variable (s : State) (x : Vector Word Config.regCount)

@[simp] theorem State.setRegs_x : (s.setRegs x).vm.x = x := rfl
@[simp] theorem State.setRegs_mem : (s.setRegs x).vm.mem = s.vm.mem := rfl
@[simp] theorem State.setRegs_ibuf : (s.setRegs x).vm.ibuf = s.vm.ibuf := rfl
@[simp] theorem State.setRegs_pc : (s.setRegs x).vm.pc = s.vm.pc := rfl
@[simp] theorem State.setRegs_snapStart : (s.setRegs x).vm.snapStart = s.vm.snapStart := rfl
@[simp] theorem State.setRegs_snapEnd : (s.setRegs x).vm.snapEnd = s.vm.snapEnd := rfl
@[simp] theorem State.setRegs_vstate : (s.setRegs x).vm.vstate = s.vm.vstate := rfl
@[simp] theorem State.setRegs_faultCond : (s.setRegs x).vm.faultCond = s.vm.faultCond := rfl
@[simp] theorem State.setRegs_faultBit : (s.setRegs x).vm.faultBit = s.vm.faultBit := rfl
@[simp] theorem State.setRegs_latches : (s.setRegs x).vm.latches = s.vm.latches := rfl
@[simp] theorem State.setRegs_dstate : (s.setRegs x).vm.dstate = s.vm.dstate := rfl
@[simp] theorem State.setRegs_params : (s.setRegs x).params = s.params := rfl
@[simp] theorem State.setRegs_enc : (s.setRegs x).enc = s.enc := rfl
@[simp] theorem State.setRegs_calls : (s.setRegs x).calls = s.calls := rfl

end SetRegs

section SetMem
variable (s : State) (m : Memory)

@[simp] theorem State.setMem_x : (s.setMem m).vm.x = s.vm.x := rfl
@[simp] theorem State.setMem_mem : (s.setMem m).vm.mem = m := rfl
@[simp] theorem State.setMem_ibuf : (s.setMem m).vm.ibuf = s.vm.ibuf := rfl
@[simp] theorem State.setMem_pc : (s.setMem m).vm.pc = s.vm.pc := rfl
@[simp] theorem State.setMem_snapStart : (s.setMem m).vm.snapStart = s.vm.snapStart := rfl
@[simp] theorem State.setMem_snapEnd : (s.setMem m).vm.snapEnd = s.vm.snapEnd := rfl
@[simp] theorem State.setMem_vstate : (s.setMem m).vm.vstate = s.vm.vstate := rfl
@[simp] theorem State.setMem_faultCond : (s.setMem m).vm.faultCond = s.vm.faultCond := rfl
@[simp] theorem State.setMem_faultBit : (s.setMem m).vm.faultBit = s.vm.faultBit := rfl
@[simp] theorem State.setMem_latches : (s.setMem m).vm.latches = s.vm.latches := rfl
@[simp] theorem State.setMem_dstate : (s.setMem m).vm.dstate = s.vm.dstate := rfl
@[simp] theorem State.setMem_params : (s.setMem m).params = s.params := rfl
@[simp] theorem State.setMem_enc : (s.setMem m).enc = s.enc := rfl
@[simp] theorem State.setMem_calls : (s.setMem m).calls = s.calls := rfl

end SetMem

section SetFetch
variable (s : State) (p : Nat) (l : Latches)

@[simp] theorem State.setFetch_x : (s.setFetch p l).vm.x = s.vm.x := rfl
@[simp] theorem State.setFetch_mem : (s.setFetch p l).vm.mem = s.vm.mem := rfl
@[simp] theorem State.setFetch_ibuf : (s.setFetch p l).vm.ibuf = s.vm.ibuf := rfl
@[simp] theorem State.setFetch_pc : (s.setFetch p l).vm.pc = p := rfl
@[simp] theorem State.setFetch_snapStart : (s.setFetch p l).vm.snapStart = s.vm.snapStart := rfl
@[simp] theorem State.setFetch_snapEnd : (s.setFetch p l).vm.snapEnd = s.vm.snapEnd := rfl
@[simp] theorem State.setFetch_vstate : (s.setFetch p l).vm.vstate = s.vm.vstate := rfl
@[simp] theorem State.setFetch_faultCond : (s.setFetch p l).vm.faultCond = s.vm.faultCond := rfl
@[simp] theorem State.setFetch_faultBit : (s.setFetch p l).vm.faultBit = s.vm.faultBit := rfl
@[simp] theorem State.setFetch_latches : (s.setFetch p l).vm.latches = l := rfl
@[simp] theorem State.setFetch_dstate : (s.setFetch p l).vm.dstate = s.vm.dstate := rfl
@[simp] theorem State.setFetch_params : (s.setFetch p l).params = s.params := rfl
@[simp] theorem State.setFetch_enc : (s.setFetch p l).enc = s.enc := rfl
@[simp] theorem State.setFetch_calls : (s.setFetch p l).calls = s.calls := rfl

end SetFetch

section RaiseRun
variable (c : Condition) (bit : Option Nat) (s : State)

@[simp] theorem raiseRun_x : (raiseRun c bit s).vm.x = s.vm.x := rfl
@[simp] theorem raiseRun_mem : (raiseRun c bit s).vm.mem = s.vm.mem := rfl
@[simp] theorem raiseRun_ibuf : (raiseRun c bit s).vm.ibuf = s.vm.ibuf := rfl
@[simp] theorem raiseRun_pc : (raiseRun c bit s).vm.pc = s.vm.pc := rfl
@[simp] theorem raiseRun_snapStart : (raiseRun c bit s).vm.snapStart = s.vm.snapStart := rfl
@[simp] theorem raiseRun_snapEnd : (raiseRun c bit s).vm.snapEnd = s.vm.snapEnd := rfl
@[simp] theorem raiseRun_vstate : (raiseRun c bit s).vm.vstate = .fault := rfl
@[simp] theorem raiseRun_faultCond : (raiseRun c bit s).vm.faultCond = some c := rfl
@[simp] theorem raiseRun_faultBit : (raiseRun c bit s).vm.faultBit = bit := rfl
@[simp] theorem raiseRun_latches : (raiseRun c bit s).vm.latches = s.vm.latches := rfl
@[simp] theorem raiseRun_dstate : (raiseRun c bit s).vm.dstate = .fault := rfl
@[simp] theorem raiseRun_params : (raiseRun c bit s).params = s.params := rfl
@[simp] theorem raiseRun_enc : (raiseRun c bit s).enc = s.enc := rfl
@[simp] theorem raiseRun_calls : (raiseRun c bit s).calls = s.calls := rfl

end RaiseRun

section FinishRun
variable (s : State)

@[simp] theorem finishRun_x : (finishRun s).vm.x = s.vm.x := rfl
@[simp] theorem finishRun_mem : (finishRun s).vm.mem = s.vm.mem := rfl
@[simp] theorem finishRun_ibuf : (finishRun s).vm.ibuf = s.vm.ibuf := rfl
@[simp] theorem finishRun_pc : (finishRun s).vm.pc = s.vm.pc := rfl
@[simp] theorem finishRun_snapStart : (finishRun s).vm.snapStart = s.vm.snapStart := rfl
@[simp] theorem finishRun_snapEnd : (finishRun s).vm.snapEnd = s.vm.snapEnd := rfl
@[simp] theorem finishRun_vstate : (finishRun s).vm.vstate = .done := rfl
@[simp] theorem finishRun_faultCond : (finishRun s).vm.faultCond = s.vm.faultCond := rfl
@[simp] theorem finishRun_faultBit : (finishRun s).vm.faultBit = s.vm.faultBit := rfl
@[simp] theorem finishRun_latches : (finishRun s).vm.latches = s.vm.latches := rfl
@[simp] theorem finishRun_dstate : (finishRun s).vm.dstate = .done := rfl
@[simp] theorem finishRun_params : (finishRun s).params = s.params := rfl
@[simp] theorem finishRun_enc : (finishRun s).enc = s.enc := rfl
@[simp] theorem finishRun_calls : (finishRun s).calls = s.calls := rfl

end FinishRun

section RaiseAsm
variable (c : Condition) (n : Nat)

@[simp] theorem raiseAsm_writer : (raiseAsm c n).writer = Writer.empty := rfl
@[simp] theorem raiseAsm_log : (raiseAsm c n).log = [] := rfl
@[simp] theorem raiseAsm_estate : (raiseAsm c n).estate = .failed := rfl
@[simp] theorem raiseAsm_errCond : (raiseAsm c n).errCond = some c := rfl
@[simp] theorem raiseAsm_errLine : (raiseAsm c n).errLine = some n := rfl

end RaiseAsm

end Sys2Proof.Machine
end

