-- ==== Sys2Proof/Laws/Ops.lean ====
section
/-! SUPPORT. For each shared operation, once, everything it can do: register and memory access, operand forms, the end of
an instruction's rule, the four meanings by cases. -/

namespace Sys2Proof.Machine

/-- A register reads exactly when its index is below `R`. -/
theorem readReg_cases (s : State) (i : Nat) :
    (∃ h : i < Config.regCount, readReg s i = .ok s.vm.x[i]) ∨
      (Config.regCount ≤ i ∧ readReg s i = .error .addressOutOfBounds) := by
  by_cases h : i < Config.regCount
  · exact .inl ⟨h, by simp [readReg, h]⟩
  · exact .inr ⟨Nat.le_of_not_lt h, by simp [readReg, h]⟩

theorem readReg_ok (s : State) (i : Nat) (h : i < Config.regCount) : readReg s i = .ok s.vm.x[i] := by
  simp [readReg, h]

theorem readReg_error (s : State) (i : Nat) (h : Config.regCount ≤ i) : readReg s i = .error .addressOutOfBounds := by
  simp [readReg, Nat.not_lt.mpr h]

/-- A register read depends on the register file alone. -/
theorem readReg_congr {s t : State} (h : t.vm.x = s.vm.x) (i : Nat) : readReg t i = readReg s i := by
  simp only [readReg, h]

/-- A register write sets one register of an existing index and nothing else. -/
theorem writeReg_cases (s : State) (i : Nat) (v : Word) :
    (i < Config.regCount ∧ writeReg s i v = .ok (s.setRegs (s.vm.x.setIfInBounds i v))) ∨
      (Config.regCount ≤ i ∧ writeReg s i v = .error .addressOutOfBounds) := by
  by_cases h : i < Config.regCount
  · exact .inl ⟨h, if_pos h⟩
  · exact .inr ⟨Nat.le_of_not_lt h, if_neg h⟩

/-- What a register reads after a write to an existing one. -/
theorem readReg_setIfInBounds (s : State) (i j : Nat) (v : Word) (hi : i < Config.regCount) :
    readReg (s.setRegs (s.vm.x.setIfInBounds i v)) j = if j = i then .ok v else readReg s j := by
  unfold readReg
  by_cases h : j = i
  · subst h; simp [hi]
  · simp [h, Ne.symm h]

theorem memRead_cases (s : State) (a : Nat) :
    (a < s.params.memWords ∧ memRead s a = .ok (s.vm.mem.read a)) ∨
      (s.params.memWords ≤ a ∧ memRead s a = .error .addressOutOfBounds) := by
  by_cases h : a < s.params.memWords
  · exact .inl ⟨h, if_pos h⟩
  · exact .inr ⟨Nat.le_of_not_lt h, if_neg h⟩

theorem memWrite_cases (s : State) (a : Nat) (v : Word) :
    (a < s.params.memWords ∧ memWrite s a v = .ok (s.setMem (s.vm.mem.write a v))) ∨
      (s.params.memWords ≤ a ∧ memWrite s a v = .error .addressOutOfBounds) := by
  by_cases h : a < s.params.memWords
  · exact .inl ⟨h, if_pos h⟩
  · exact .inr ⟨Nat.le_of_not_lt h, if_neg h⟩

/-- An effective address through a register is the register's value. -/
theorem registerIndirect_cases (s : State) (i : Nat) :
    (∃ h : i < Config.regCount, registerIndirect s i = .ok s.vm.x[i].toNat) ∨
      (Config.regCount ≤ i ∧ registerIndirect s i = .error .addressOutOfBounds) := by
  rcases readReg_cases s i with ⟨h, e⟩ | ⟨h, e⟩
  · exact .inl ⟨h, by simp [registerIndirect, e]⟩
  · exact .inr ⟨h, by simp [registerIndirect, e]⟩

@[simp] theorem settle_ok (s t : State) : settle s (.ok t) = .next t := rfl

@[simp] theorem settle_error (s : State) (c : Condition) :
    settle s (.error c) = .next (raiseRun c s.vm.latches.ibase s) := rfl

/-- An instruction either sets one register, or writes one memory word, or takes `AddressOutOfBounds`. A register gets a
constant or a memory word; a memory word gets a register or a count. -/
theorem exec_cases (i : Instr) (s : State) :
    (∃ d v, d < Config.regCount ∧
      exec i s = .next (s.setRegs (s.vm.x.setIfInBounds d v)) ∧
      ((∃ c, i = .load d c ∧ v = BitVec.ofNat 32 c) ∨ ∃ r a, i = .read r d ∧ v = s.vm.mem.read a)) ∨
    (∃ a v, a < s.params.memWords ∧ exec i s = .next (s.setMem (s.vm.mem.write a v)) ∧
      ((∃ d r, ∃ h : r < Config.regCount, i = .write d r ∧ v = s.vm.x[r]) ∨
        ∃ d m, i = .popcnt d m ∧ v = BitVec.ofNat 32 (popcount (s.vm.mem.read m)))) ∨
    exec i s = .next (raiseRun .addressOutOfBounds s.vm.latches.ibase s) := by
  cases i with
  | load d c =>
    rcases writeReg_cases s d (immediate c) with ⟨h, e⟩ | ⟨h, e⟩
    · exact .inl ⟨d, BitVec.ofNat 32 c, h, by simp [exec, execLoad, e]; rfl, .inl ⟨c, rfl, rfl⟩⟩
    · exact .inr (.inr (by simp [exec, execLoad, e]))
  | read r d =>
    rcases registerIndirect_cases s r with ⟨hr, er⟩ | ⟨hr, er⟩
    · rcases memRead_cases s s.vm.x[r].toNat with ⟨ha, ea⟩ | ⟨ha, ea⟩
      · rcases writeReg_cases s d (s.vm.mem.read s.vm.x[r].toNat) with ⟨h, e⟩ | ⟨h, e⟩
        · exact .inl ⟨d, s.vm.mem.read s.vm.x[r].toNat, h, by simp [exec, execRead, er, ea, e, bind, Except.bind], .inr ⟨r, _, rfl, rfl⟩⟩
        · exact .inr (.inr (by simp [exec, execRead, er, ea, e, bind, Except.bind]))
      · exact .inr (.inr (by simp [exec, execRead, er, ea, bind, Except.bind]))
    · exact .inr (.inr (by simp [exec, execRead, er, bind, Except.bind]))
  | write d r =>
    rcases registerIndirect_cases s d with ⟨hd, ed⟩ | ⟨hd, ed⟩
    · rcases readReg_cases s r with ⟨hr, er⟩ | ⟨hr, er⟩
      · rcases memWrite_cases s s.vm.x[d].toNat s.vm.x[r] with ⟨h, e⟩ | ⟨h, e⟩
        · exact .inr (.inl ⟨_, _, h, by simp [exec, execWrite, registerDirect, ed, er, e, bind, Except.bind],
            .inl ⟨d, r, hr, rfl, rfl⟩⟩)
        · exact .inr (.inr (by simp [exec, execWrite, registerDirect, ed, er, e, bind, Except.bind]))
      · exact .inr (.inr (by simp [exec, execWrite, registerDirect, ed, er, bind, Except.bind]))
    · exact .inr (.inr (by simp [exec, execWrite, ed, bind, Except.bind]))
  | popcnt d m =>
    rcases memRead_cases s m with ⟨hm, em⟩ | ⟨hm, em⟩
    · rcases registerIndirect_cases s d with ⟨hd, ed⟩ | ⟨hd, ed⟩
      · rcases memWrite_cases s s.vm.x[d].toNat (BitVec.ofNat 32 (popcount (s.vm.mem.read m))) with ⟨h, e⟩ | ⟨h, e⟩
        · exact .inr (.inl ⟨_, _, h, by simp [exec, execPopcnt, absolute, em, ed, e, bind, Except.bind],
            .inr ⟨d, m, rfl, rfl⟩⟩)
        · exact .inr (.inr (by simp [exec, execPopcnt, absolute, em, ed, e, bind, Except.bind]))
      · exact .inr (.inr (by simp [exec, execPopcnt, absolute, em, ed, bind, Except.bind]))
    · exact .inr (.inr (by simp [exec, execPopcnt, absolute, em, bind, Except.bind]))

end Sys2Proof.Machine
end

