-- ==== Sys2Proof/Laws/PerInstr.lean ====
section
/-! SUPPORT. A family of lemmas, one per instruction: its well-formedness is the range check of its descriptor row, its
row is its own, and it is rebuilt from its operands. -/

namespace Sys2Proof.Laws.RowAgrees

open Sys2Proof.Machine

/-- What holds of an instruction as syntax. -/
def Statement (i : Instr) : Prop :=
  (i.WellFormed ↔ operandsFit i.row.fields i.operands = true) ∧ i.operands.length = i.row.fields.length ∧
    lookupRow i.row.code = some i.row ∧ i.row.name = i.mnemonic ∧
    Instr.ofFields i.mnemonic (i.operands.getD 0 0) (i.operands.getD 1 0) = i

theorem load (destReg const : Nat) : Statement (.load destReg const) :=
  ⟨by simp [Instr.WellFormed, Instr.wellFormed, operandsFit, Instr.row, Instr.mnemonic, Mnemonic.row, Instr.operands], rfl, rfl, rfl, rfl⟩

theorem read (srcAddrReg destReg : Nat) : Statement (.read srcAddrReg destReg) :=
  ⟨by simp [Instr.WellFormed, Instr.wellFormed, operandsFit, Instr.row, Instr.mnemonic, Mnemonic.row, Instr.operands], rfl, rfl, rfl, rfl⟩

theorem write (destReg srcReg : Nat) : Statement (.write destReg srcReg) :=
  ⟨by simp [Instr.WellFormed, Instr.wellFormed, operandsFit, Instr.row, Instr.mnemonic, Mnemonic.row, Instr.operands], rfl, rfl, rfl, rfl⟩

theorem popcnt (destAddrReg srcMemAddr : Nat) : Statement (.popcnt destAddrReg srcMemAddr) :=
  ⟨by simp [Instr.WellFormed, Instr.wellFormed, operandsFit, Instr.row, Instr.mnemonic, Mnemonic.row, Instr.operands], rfl, rfl, rfl, rfl⟩

end Sys2Proof.Laws.RowAgrees
end

