-- ==== Sys2Proof/Laws/Step.lean ====
section
/-! SUPPORT. Everything a step can do: a turn of the run loop by cases, and the taking of a host call otherwise. -/

namespace Sys2Proof.Machine

theorem step_of_run {s : State} (h : s.vm.vstate = .run) : step s = runTurn s := by simp [step, stepOnce, h]

theorem step_of_not_run {s : State} (h : s.vm.vstate ≠ .run) : step s = takeCall s := by
  unfold step stepOnce; cases e : s.vm.vstate <;> simp_all

/-- A turn of the run loop ends the run at the end of the buffer, or executes the well-formed instruction that stands at
the cursor, or takes the condition its decoding raised. -/
theorem runTurn_cases (s : State) :
    (lenBits s.vm.ibuf ≤ s.vm.pc ∧ runTurn s = .next (finishRun s)) ∨
    (s.vm.pc < lenBits s.vm.ibuf ∧ ∃ m i, s.vm.pc + m.row.total ≤ lenBits s.vm.ibuf ∧ i.WellFormed ∧ i.row = m.row ∧
      decodeOne s.vm.ibuf s.vm.pc s.vm.latches =
        ⟨fullLatches s.vm.ibuf s.vm.pc m, s.vm.pc + m.row.total, .ok i⟩ ∧
      runTurn s = exec i (s.setFetch (s.vm.pc + m.row.total) (fullLatches s.vm.ibuf s.vm.pc m))) ∨
    (s.vm.pc < lenBits s.vm.ibuf ∧ ∃ l p c, p ≤ lenBits s.vm.ibuf ∧ l.ibase = some s.vm.pc ∧
      (c = .unknownOpcode ∨ c = .malformedInstruction) ∧
      decodeOne s.vm.ibuf s.vm.pc s.vm.latches = ⟨l, p, .error c⟩ ∧
      runTurn s = .next (raiseRun c (some s.vm.pc) (s.setFetch p l))) := by
  by_cases hp : s.vm.pc < lenBits s.vm.ibuf
  swap
  · exact .inl ⟨Nat.le_of_not_lt hp, if_neg hp⟩
  right
  have hr : runTurn s = match decodeOne s.vm.ibuf s.vm.pc s.vm.latches with
    | { latches := l, pc := p, result := .ok i } => exec i (s.setFetch p l)
    | { latches := l, pc := p, result := .error c } => .next (raiseRun c l.ibase (s.setFetch p l)) := if_pos hp
  obtain ⟨⟨l, p, r⟩, hd⟩ : ∃ d, decodeOne s.vm.ibuf s.vm.pc s.vm.latches = d := ⟨_, rfl⟩
  rw [hd] at hr ⊢
  cases r with
  | ok i =>
    obtain ⟨m, h1, -, -, h4, h5, h6⟩ := decodeOne_eq_ok (show (decodeOne _ _ s.vm.latches).result = .ok i by rw [hd])
    rw [hd] at h5 h6
    simp only at h5 h6
    subst h5 h6
    refine .inl ⟨hp, m, i, h1, ?_, ?_, rfl, hr⟩
    · rw [h4]; exact (Instr.ofFields_wellFormed _ _ _).mpr ⟨bitsAt_lt _ _ _, bitsAt_lt _ _ _⟩
    · rw [h4, Instr.row, Instr.ofFields_mnemonic]
  | error c =>
    obtain ⟨h1, h2, h3⟩ :=
      decodeOne_eq_error (Nat.le_of_lt hp) (show (decodeOne _ _ s.vm.latches).result = .error c by rw [hd])
    rw [hd] at h2 h3
    simp only at h2 h3
    refine .inr ⟨hp, l, p, c, h2, h3, h1, rfl, ?_⟩
    rw [hr]; simp only [h3]

/-- Between passes: nothing, an assembly pass over text or over records, or the admission of a run. -/
theorem takeCall_cases (s : State) :
    (s.calls = [] ∧ takeCall s = .next s) ∨
    (∃ text rest, s.calls = .assemble text :: rest ∧
      takeCall s = .next { s with enc := assemblePass text, calls := rest }) ∨
    (∃ rs rest, s.calls = .assembleRecords rs :: rest ∧
      takeCall s = .next { s with enc := recordPass rs, calls := rest }) ∨
    (∃ buf a b rest, s.calls = .run buf a b :: rest ∧ takeCall s = admitRun buf a b { s with calls := rest }) := by
  unfold takeCall
  cases h : s.calls with
  | nil => exact .inl ⟨rfl, rfl⟩
  | cons c rest =>
    cases c with
    | assemble text => exact .inr (.inl ⟨text, rest, rfl, rfl⟩)
    | assembleRecords rs => exact .inr (.inr (.inl ⟨rs, rest, rfl, rfl⟩))
    | run buf a b => exact .inr (.inr (.inr ⟨buf, a, b, rest, rfl, rfl⟩))

/-- The admission of a run: faulted for its range, or stopped for its buffer's length, or admitted. -/
theorem admitRun_cases (buf : List Byte) (a b : Nat) (s : State) :
    (¬(a ≤ b ∧ b ≤ s.params.memWords) ∧
      admitRun buf a b s = .next (raiseRun .addressOutOfBounds (some 0) { s with vm := loadedVM buf a b })) ∨
    ((a ≤ b ∧ b ≤ s.params.memWords) ∧ acceptsLength s.params buf = false ∧
      admitRun buf a b s = .fault .bufferTooLong) ∨
    ((a ≤ b ∧ b ≤ s.params.memWords) ∧ acceptsLength s.params buf = true ∧
      admitRun buf a b s = .next { s with vm := { loadedVM buf a b with vstate := .run, dstate := .fetch } }) := by
  by_cases h : a ≤ b ∧ b ≤ s.params.memWords
  · have e : admitRun buf a b s = if acceptsLength s.params buf then
        .next { s with vm := { loadedVM buf a b with vstate := .run, dstate := .fetch } }
      else .fault .bufferTooLong := if_pos h
    rw [e]
    cases acceptsLength s.params buf with
    | false => exact .inr (.inl ⟨h, rfl, rfl⟩)
    | true => exact .inr (.inr ⟨h, rfl, rfl⟩)
  · exact .inl ⟨h, if_neg h⟩

theorem acceptsLength_eq_false (p : Params) (buf : List Byte) :
    acceptsLength p buf = false ↔ ∃ n, p.lmax = some n ∧ n < buf.length := by
  unfold acceptsLength; cases p.lmax <;> simp

end Sys2Proof.Machine
end

