-- ==== Sys2Proof/Tests/Slice0.lean ====
section
/-! SUPPORT. Own tests: ill-formed terms refused, words written out from the formats, one step of each instruction, the
assembler's vectors, and for each statement with hypotheses a state and operands that meet them. Every expected value is
from spec/95_test_vectors.md unless a comment says otherwise. -/

namespace Sys2Proof.Tests

open Sys2Proof Sys2Proof.Machine
set_option Elab.async false

/-! ## Helpers -/

/-- A run in progress over `buf` at bit `pc`, `M = 1024`, range `[0, 1024)`. -/
def running (x : Vector Word 8) (m : Memory) (buf : List Byte) (pc : Nat) : State :=
  { State.reset with
    vm := { VM.reset with x := x, mem := m, ibuf := buf, pc := pc, snapStart := some 0, snapEnd := some 1024
                          vstate := .run, dstate := .fetch } }

def zeros : Vector Word 8 := Vector.replicate 8 0

def after (o : Host.Outcome State Fault Refusal) : Option State :=
  match o with
  | .next t => some t
  | .fault _ => none
  | .refused _ => none

/-! ## Well-formedness: each check refuses a term -/

theorem test_wf_load_reg : (Instr.load 8 0).wellFormed = false := by decide
theorem test_wf_load_const : (Instr.load 0 (2 ^ 24)).wellFormed = false := by decide
theorem test_wf_read_src : (Instr.read (2 ^ 32) 0).wellFormed = false := by decide
theorem test_wf_read_reg : (Instr.read 0 8).wellFormed = false := by decide
theorem test_wf_write_dest : (Instr.write 8 0).wellFormed = false := by decide
theorem test_wf_write_src : (Instr.write 0 8).wellFormed = false := by decide
theorem test_wf_popcnt_reg : (Instr.popcnt 8 0).wellFormed = false := by decide
theorem test_wf_popcnt_addr : (Instr.popcnt 0 (2 ^ 32)).wellFormed = false := by decide
theorem test_wf_largest : (Instr.load 7 16777215).wellFormed ∧ (Instr.read 4294967295 7).wellFormed ∧
    (Instr.write 7 7).wellFormed ∧ (Instr.popcnt 7 4294967295).wellFormed := by decide

/-! ## Decoding words written out field by field: opcode, first field, second field, tail -/

theorem test_decode_load : decodeTableWord 40 0b000000_000000000000001001111000_110_0001010 = some (.load 6 632) := by
  decide +kernel
theorem test_decode_read :
    decodeTableWord 48 0b000000_011_00000000000000000000000000000001_0110110 = some (.read 1 3) := by decide +kernel
theorem test_decode_write : decodeTableWord 16 0b000_010_101_0100111 = some (.write 5 2) := by decide +kernel
theorem test_decode_popcnt :
    decodeTableWord 48 0b000000_00000000000000000000000000000101_011_0010010 = some (.popcnt 3 5) := by decide +kernel
theorem test_decode_largest : decodeTableWord 40 0x03FFFFFF8A = some (.load 7 16777215) ∧
    decodeTableWord 48 0x03FFFFFFFFB6 = some (.read 4294967295 7) ∧ decodeTableWord 16 0x1FA7 = some (.write 7 7) ∧
    decodeTableWord 48 0x03FFFFFFFF92 = some (.popcnt 7 4294967295) := by decide +kernel
theorem test_decode_bad_tail : decodeTableWord 40 0x040009E30A = none ∧ decodeTableWord 16 0x24A7 = none ∧
    decodeTableWord 48 0x0580000000B6 = none := by decide +kernel
theorem test_encode : encode (.load 6 632) = [0x0A, 0xE3, 0x09, 0x00, 0x00] ∧
    encode (.read 4000000000 0) = [0x36, 0x00, 0x94, 0x35, 0x77, 0x00] ∧ encode (.write 1 2) = [0xA7, 0x08] ∧
    encode (.popcnt 1 1023) = [0x92, 0xFC, 0x0F, 0x00, 0x00, 0x00] := by decide +kernel

/-! ## One step of each instruction -/

/-- Part 2 F, `LOAD 7 16777215`. -/
theorem test_step_load : (after (step (State.reset.withFetchWord 40 0x03FFFFFF8A))).map (fun t => (t.vm.x, t.vm.mem)) =
    some (#v[0, 0, 0, 0, 0, 0, 0, 0x00FFFFFF], []) := by decide +kernel
/-- Part 3 P1, `READ 1 3` at bit 96. -/
theorem test_step_read :
    (after (step ((running #v[0, 5, 7, 0, 0, 0, 0, 0] [(5, 7)] [] 0).withFetchWord 48 0x0180000000B6))).map
      (fun t => (t.vm.x, t.vm.mem)) = some (#v[0, 5, 7, 7, 0, 0, 0, 0], [(5, 7)]) := by decide +kernel
/-- Part 2 F, `LOAD 1 5` / `READ 1 1`: the address is read before the register is overwritten. -/
theorem test_step_read_same :
    (after (step (running #v[0, 5, 0, 0, 0, 0, 0, 0] [] (encodeProgram [.load 1 5, .read 1 1]) 40))).map
      (fun t => (t.vm.x, t.vm.pc)) = some (zeros, 88) := by decide +kernel
/-- Part 3 P1, `WRITE 1 2`. -/
theorem test_step_write :
    (after (step ((running #v[0, 5, 7, 0, 0, 0, 0, 0] [] [] 0).withFetchWord 16 0x08A7))).map
      (fun t => (t.vm.x, t.vm.mem)) = some (#v[0, 5, 7, 0, 0, 0, 0, 0], [(5, 7)]) := by decide +kernel
/-- Part 3 P5: the last word of memory, and with `M = 1023` the fault at bit 40. -/
theorem test_step_write_limit :
    (after (step (running #v[1023, 0, 0, 0, 0, 0, 0, 0] [] [0x0A, 0xFC, 0x0F, 0, 0, 0x27, 0] 40))).map (fun t => t.vm.mem) =
      some [(1023, 1023)] ∧
    ((after (step { running #v[1023, 0, 0, 0, 0, 0, 0, 0] [] [0x0A, 0xFC, 0x0F, 0, 0, 0x27, 0] 40 with
        params := { Params.default with memWords := 1023 } })).bind runResult) =
      some (.fault .addressOutOfBounds 40) := by decide +kernel
/-- Part 3 P3: source and destination the same word. -/
theorem test_step_popcnt :
    (after (step ((running #v[0, 0, 0, 16777215, 9, 0, 0, 0] [(0, 16777215), (9, 24)] [] 0).withFetchWord 48 0x000000002612))).map
      (fun t => (t.vm.x, t.vm.mem)) = some (#v[0, 0, 0, 16777215, 9, 0, 0, 0], [(0, 16777215), (9, 2)]) := by
  decide +kernel
/-- Part 2 G, `POPCNT 0 1024`. -/
theorem test_step_popcnt_limit :
    ((after (step (running zeros [] [0x12, 0x00, 0x10, 0, 0, 0] 0))).bind runResult) =
      some (.fault .addressOutOfBounds 0) := by decide +kernel
theorem test_popcount : popcount 0 = 0 ∧ popcount 632 = 5 ∧ popcount 16777215 = 24 ∧ popcount 0x80000000 = 1 ∧
    popcount 0xFFFFFFFF = 32 := by decide +kernel

/-! ## Decode faults (part 2 H) -/

theorem test_fault_priority :
    ((after (step (running zeros [] [0x36, 0x04, 0, 0, 0, 0x04] 0))).bind runResult) =
      some (.fault .malformedInstruction 0) ∧
    ((after (step (running zeros [] [0x36, 0x04, 0, 0, 0, 0x00] 0))).bind runResult) =
      some (.fault .addressOutOfBounds 0) ∧
    ((after (step (running zeros [] [0x8B] 0))).bind runResult) = some (.fault .unknownOpcode 0) ∧
    ((after (step (running zeros [] [0x0A] 0))).bind runResult) = some (.fault .malformedInstruction 0) ∧
    ((after (step (running zeros [] [0x0A, 0xE3, 0x09, 0, 0, 0x27] 40))).bind runResult) =
      some (.fault .malformedInstruction 40) := by decide +kernel
theorem test_admission :
    run State.reset [] 0 2 = some (.ok [(0, 0), (1, 0)] (some [0, 0, 0, 0, 0, 0, 0, 0])) ∧
    run State.reset [0] 5 4 = some (.fault .addressOutOfBounds 0) ∧
    run State.reset [] 0 1025 = some (.fault .addressOutOfBounds 0) ∧
    run State.reset [] 1024 1024 = some (.ok [] (some [0, 0, 0, 0, 0, 0, 0, 0])) := by decide +kernel

/-- R125, R172 (1): an illegal range faults whatever the buffer, also one longer than a finite `LMAX`. -/
theorem test_range_before_length :
    run { State.reset with params := { Params.default with lmax := some 1 } } [0xA7, 0x08] 5 4 =
      some (.fault .addressOutOfBounds 0) := by decide +kernel

/-! ## The assembler (part 2 C) -/

theorem test_assemble_ok : assemble "  LOAD\t1   5  \r\n".toList =
    some (.ok [0x8A, 0x14, 0, 0, 0] [{ name := .load, code := 10, operands := [(.destReg, 1), (.const, 5)] }]) := by
  decide +kernel
theorem test_assemble_folding : assemble "load 01 0005".toList = assemble "LOAD 1 5".toList := by decide +kernel
theorem test_assemble_skipped : assemble [] = some (.ok [] []) ∧ assemble "# c\n\n  # d\n".toList = some (.ok [] []) := by
  decide +kernel
theorem test_assemble_mnemonic : assemble "FOO x".toList = some (.err .unknownOpcode 1) ∧
    assemble "LOAD, 1 2".toList = some (.err .unknownOpcode 1) := by decide +kernel
theorem test_assemble_arity : assemble "LOAD x".toList = some (.err .arityError 1) ∧
    assemble "LOAD 1 5 # five".toList = some (.err .arityError 1) := by decide +kernel
theorem test_assemble_token : assemble "LOAD x 99999999".toList = some (.err .badOperandToken 1) ∧
    assemble "LOAD 1 -5".toList = some (.err .badOperandToken 1) ∧
    assemble "LOAD 1 6,".toList = some (.err .badOperandToken 1) := by decide +kernel
theorem test_assemble_range : assemble "LOAD 7 16777216".toList = some (.err .operandOverflow 1) ∧
    assemble "READ 4294967296 7".toList = some (.err .operandOverflow 1) ∧
    assemble "READ 4294967295 7".toList =
      some (.ok [0xB6, 0xFF, 0xFF, 0xFF, 0xFF, 0x03]
        [{ name := .read, code := 54, operands := [(.srcAddrReg, 4294967295), (.destReg, 7)] }]) := by decide +kernel
theorem test_assemble_line : assemble "# c\n\n  # d\nLOAD 1 5\nFOO".toList = some (.err .unknownOpcode 5) ∧
    assemble "LOAD 1 5\nLOAD 9 1\nBAR".toList = some (.err .operandOverflow 2) := by decide +kernel

/-! ## For each statement with hypotheses, a state and operands that meet them -/

/-- The program of part 3 P1 after its first two instructions, and a state whose registers stand at the boundaries:
`x[1]` is the last word of memory, `x[2]` the first address outside. -/
def stored : State := running #v[0, 5, 7, 0, 0, 0, 0, 0] [(5, 7)] [0x8A, 0x14, 0, 0, 0, 0xA7, 0x08] 40
def edge : State := running #v[0, 1023, 1024, 0, 0, 0, 0, 0xFFFFFF] [(5, 7), (1023, 9)] [] 0

theorem witness_writerSafe : WriterSafe { wbuf := [0x0A, 0x03], wbits := 10 } where
  bytes := rfl
  zeroAbove := fun k hk => by
    rcases Nat.lt_or_ge k 16 with h | h
    · have hk' : 10 ≤ k := hk
      interval_cases k <;> decide
    · exact streamBit_of_lenBits_le _ _ h

theorem witness_WrittenFieldsReadBack : ∀ p ∈ [(7, 3), (0, 0), (16777215, 24)], p.1 < 2 ^ p.2 := by decide
theorem witness_WriterKeepsItsInvariant :
    WriterSafe { wbuf := [0x0A, 0x03], wbits := 10 } ∧ ∃ k, k = 9 ∧ k < ({ wbuf := [0x0A, 0x03], wbits := 10 } : Writer).wbits :=
  ⟨witness_writerSafe, 9, rfl, by decide⟩
theorem witness_WriteIsAShiftAndMerge : ∃ w : Writer, w.wbits % 8 ≠ 0 ∧ WriterSafe w := ⟨_, by decide, witness_writerSafe⟩
theorem witness_EncodingIsTheFormatWord : (Instr.load 7 16777215).WellFormed ∧ (Instr.read 4294967295 0).WellFormed ∧
    (Instr.write 0 7).WellFormed ∧ (Instr.popcnt 0 4294967295).WellFormed := by decide
theorem witness_DecodingAnEncodingReturnsIt : (Instr.load 0 16777215).WellFormed ∧ (Instr.read 4294967295 7).WellFormed ∧
    (Instr.write 7 0).WellFormed ∧ (Instr.popcnt 7 4294967295).WellFormed := by decide
theorem witness_EncodingADecodedInstructionReturnsItsBytes : decode [0xA7, 0x1F, 0x27] = .ok (.write 7 7, [0x27]) := by
  decide +kernel
theorem witness_ProgramBytesDecodeToTheProgram :
    ∀ i ∈ [Instr.load 7 16777215, .read 4294967295 7, .write 7 7, .popcnt 7 4294967295], i.WellFormed := by decide
theorem witness_PackerWritesOpcodeFieldsAndTail :
    7 < 2 ^ (Mnemonic.row .load).width 0 ∧ 16777215 < 2 ^ (Mnemonic.row .load).width 1 ∧
    4294967295 < 2 ^ (Mnemonic.row .read).width 0 ∧ 7 < 2 ^ (Mnemonic.row .read).width 1 := by decide
theorem witness_LineChecksComeInOrder :
    resolve "FOO".toList = none ∧ resolve "LOAD".toList = some (Mnemonic.row .load) ∧ [['6']].length ≠ 2 ∧
    ([['6'], ['x']].length = 2 ∧ ∃ u ∈ [['6'], ['x']], parseOperand u = none) ∧
    parseOperand ['6'] = some 6 ∧ parseOperand ['6', '3', '2'] = some 632 :=
  ⟨by decide +kernel, by decide +kernel, by decide, ⟨rfl, ['x'], by simp, by decide +kernel⟩, by decide +kernel,
    by decide +kernel⟩
theorem witness_FirstBadLineIsReported :
    ∃ e', ["# c".toList, "LOAD 1 5".toList].foldlM (fun e l => assembleLine l e) Encoder.reset = .ok e' ∧
      assembleLine "LOAD 9 1".toList e' = .error .operandOverflow := ⟨_, rfl, rfl⟩
theorem witness_AssembledBytesDecodeToTheLoggedProgram :
    assemble "WRITE 1 2".toList = some (.ok [0xA7, 0x08]
      [{ name := .write, code := 39, operands := [(.destReg, 1), (.srcReg, 2)] }]) := by decide +kernel
theorem witness_ByteCountFollowsTheLog :
    assemble "POPCNT 1 1023\nWRITE 1 2".toList = some (.ok [0x92, 0xFC, 0x0F, 0, 0, 0, 0xA7, 0x08]
      [{ name := .popcnt, code := 18, operands := [(.destAddrReg, 1), (.srcMemAddr, 1023)] },
       { name := .write, code := 39, operands := [(.destReg, 1), (.srcReg, 2)] }]) := by decide +kernel
/-- The premises on lines and tokens: a gap, a run, a blank after it, and a line of each kind. -/
theorem witness_SkippedLinesAssembleToNothing_tokens :
    (∀ c ∈ [' ', '\x0c'], c ∈ [' ', '\t', '\r', '\x0b', '\x0c']) ∧ ['L', '\n'] ≠ [] ∧
    (∀ c ∈ ['L', '#'], ¬c ∈ [' ', '\t', '\r', '\x0b', '\x0c']) ∧ '\r' ∈ [' ', '\t', '\r', '\x0b', '\x0c'] ∧
    tokens [' ', '\t', '\r', '\x0b', '\x0c'] = [] ∧ tokens " # d".toList = [['#'], ['d']] ∧
    tokens "WRITE\t1  2\r".toList = ["WRITE".toList, ['1'], ['2']] ∧ "WRITE".toList.head? ≠ some '#' :=
  ⟨by simp, by simp, by simp, by simp, by decide +kernel, by decide +kernel, by decide +kernel, by decide +kernel⟩
theorem witness_SkippedLinesAssembleToNothing :
    ∀ l ∈ splitLines " \n#c d".toList, tokens l = [] ∨ ∃ t ts, tokens l = ('#' :: t) :: ts := by
  have h : splitLines " \n#c d".toList = [[' '], ['#', 'c', ' ', 'd']] := by decide +kernel
  rw [h]
  intro l hl
  simp only [List.mem_cons, List.not_mem_nil, or_false] at hl
  rcases hl with rfl | rfl
  · exact .inl rfl
  · exact .inr ⟨['c'], [['d']], rfl⟩
theorem witness_CanonicalTextAssemblesToItsEncoding : (Instr.load 0 0).WellFormed ∧ (Instr.popcnt 7 4294967295).WellFormed := by
  decide
theorem witness_MnemonicsResolveInAnyCase :
    25 < 26 ∧ ('Z'.toNat < 97 ∨ 122 < 'Z'.toNat) ∧ ('\x7b'.toNat < 97 ∨ 122 < '\x7b'.toNat) ∧
    List.Forall₂ (fun c u => c = u ∨ c.toNat = u.toNat + 32) "pOpCnT".toList (spelling .popcnt) ∧
    resolve "pOpCnT".toList = some (Mnemonic.row .popcnt) :=
  ⟨by decide, by decide, by decide, by simp [spelling], by decide +kernel⟩
theorem witness_OperandTokensAreDecimal : ['7'] ≠ ([] : List Char) := by decide
theorem witness_RecordsPackIntoTheProgram : ∀ i ∈ [Instr.write 7 7, .read 4294967295 0], i.WellFormed := by decide

theorem witness_RegisterAccessIsBoundsChecked : 8 ≤ 8 ∧ 7 < 8 := by decide
theorem witness_MemWriteIsBoundsChecked :
    edge.vm.mem.wf ∧ edge.params.memWords ≤ 1024 ∧ 1023 < edge.params.memWords := by decide
theorem witness_MemoryReadsBackTheLastWrite :
    edge.vm.mem.wf ∧ Memory.wf [(5, 7)] ∧ ∀ b, Memory.read [(5, 7)] b = Memory.read [(5, 7)] b := ⟨by decide, by decide, fun _ => rfl⟩
theorem witness_LoadWritesTheConstant : 7 < 8 ∧ 16777215 < 2 ^ 24 := by decide
theorem witness_ReadCopiesTheWord : 7 < 8 ∧ registerIndirect edge 1 = .ok 1023 ∧ 1023 < edge.params.memWords := by
  decide +kernel
theorem witness_WriteStoresTheRegister :
    edge.vm.mem.wf ∧ registerIndirect edge 1 = .ok 1023 ∧ registerDirect edge 7 = .ok 0xFFFFFF ∧
    1023 < edge.params.memWords := by decide +kernel
theorem witness_PopcntStoresTheCount :
    edge.vm.mem.wf ∧ 1023 < edge.params.memWords ∧ registerIndirect edge 1 = .ok 1023 := by decide +kernel
theorem witness_LoadFaultsOutsideTheRegisterFile : 8 ≤ 8 := by decide
theorem witness_ReadFaultsOutOfBounds :
    (8 ≤ 4294967295 ∨ 8 ≤ 0) ∧ registerIndirect edge 2 = .ok 1024 ∧ edge.params.memWords ≤ 1024 := by decide +kernel
theorem witness_WriteFaultsOutOfBounds :
    (8 ≤ 0 ∨ 8 ≤ 8) ∧ registerIndirect edge 2 = .ok 1024 ∧ edge.params.memWords ≤ 1024 := by decide +kernel
theorem witness_PopcntFaultsOutOfBounds :
    (8 ≤ 0 ∨ edge.params.memWords ≤ 1024) ∧ registerIndirect edge 2 = .ok 1024 ∧ edge.params.memWords ≤ 1024 := by
  decide +kernel
theorem witness_PopcountCountsTheBits : 31 < 32 ∧ 32 ≤ 32 := by decide

theorem witness_StepRunsTheDecodedInstruction :
    stored.vm.vstate = .run ∧ stored.vm.pc < lenBits stored.vm.ibuf ∧
    decodeOne stored.vm.ibuf stored.vm.pc stored.vm.latches =
      { latches := { op := some 39, row := some .write, f0 := some 1, f1 := some 2, rsv := some 0, ibase := some 40 }
        pc := 56, result := .ok (.write 1 2) } := by decide +kernel
theorem witness_StepRunsTheEncodedInstruction :
    stored.vm.vstate = .run ∧ (Instr.write 1 2).WellFormed ∧
    stored.vm.ibuf = [0x8A, 0x14, 0, 0, 0] ++ encode (.write 1 2) ++ [] ∧
    stored.vm.pc = 8 * ([0x8A, 0x14, 0, 0, 0] : List Byte).length := by decide +kernel
theorem witness_CursorAdvancesByTheInstructionLength :
    ∃ t, stored.vm.vstate = .run ∧ step stored = .next t ∧ t.vm.vstate = .run := ⟨_, rfl, rfl, rfl⟩
theorem witness_UnassignedOpcodeFaults :
    ∃ s : State, s.vm.vstate = .run ∧ s.vm.pc + 7 ≤ lenBits s.vm.ibuf ∧ bitsAt s.vm.ibuf s.vm.pc 7 ∉ [10, 18, 39, 54] :=
  ⟨running zeros [] [0x16] 1, by decide +kernel⟩
theorem witness_NonzeroTailFaults :
    ∃ s : State, s.vm.vstate = .run ∧ s.vm.pc + (Mnemonic.row .write).total ≤ lenBits s.vm.ibuf ∧
      bitsAt s.vm.ibuf s.vm.pc 7 = (Mnemonic.row .write).code.toNat ∧
      bitsAt s.vm.ibuf (s.vm.pc + (Mnemonic.row .write).total - (Mnemonic.row .write).resv) (Mnemonic.row .write).resv ≠ 0 :=
  ⟨running zeros [] [0xA7, 0x84] 0, by decide +kernel⟩
theorem witness_TruncatedInstructionFaults :
    (∃ s : State, s.vm.vstate = .run ∧ s.vm.pc < lenBits s.vm.ibuf ∧ lenBits s.vm.ibuf < s.vm.pc + 7) ∧
    ∃ s : State, s.vm.vstate = .run ∧ s.vm.pc < lenBits s.vm.ibuf ∧ s.vm.pc + 7 ≤ lenBits s.vm.ibuf ∧
      bitsAt s.vm.ibuf s.vm.pc 7 = (Mnemonic.row .load).code.toNat ∧
      lenBits s.vm.ibuf < s.vm.pc + (Mnemonic.row .load).total :=
  ⟨⟨running zeros [] [0] 2, by decide +kernel⟩, running zeros [] [0x0A, 0xE3, 0x09, 0x00] 0, by decide +kernel⟩
theorem witness_FaultsArePrecise :
    ∃ t, (running zeros [] [0x0B] 0).vm.vstate = .run ∧ step (running zeros [] [0x0B] 0) = .next t ∧
      t.vm.vstate = .fault := ⟨_, rfl, rfl, rfl⟩
theorem witness_RunEndsExactlyAtTheBufferEnd :
    ∃ s t : State, s.vm.vstate = .run ∧ s.vm.pc ≤ lenBits s.vm.ibuf ∧ s.vm.pc = lenBits s.vm.ibuf ∧ step s = .next t ∧
      t.vm.vstate = .done := ⟨running zeros [] [0xA7, 0x08] 16, _, rfl, by decide, rfl, rfl, rfl⟩
/-- Both sides of the range check: `end = M` with a buffer of exactly `LMAX` bytes, and `end = M + 1` and `start > end` with
one of any length. -/
theorem witness_RunStartsFromResetAndChecksItsRange :
    (∃ s : State, s.vm.vstate ≠ .run ∧ s.calls = .run [0xA7, 0x08] 1024 1024 :: [] ∧
      (1024 ≤ 1024 ∧ 1024 ≤ s.params.memWords) ∧ acceptsLength s.params [0xA7, 0x08] = true) ∧
    (∃ s : State, s.vm.vstate ≠ .run ∧ s.calls = .run [0xA7, 0x08, 0] 0 1025 :: [] ∧
      ¬(0 ≤ 1025 ∧ 1025 ≤ s.params.memWords)) ∧
    ∃ s : State, s.vm.vstate ≠ .run ∧ s.calls = .run [0xA7, 0x08, 0] 5 4 :: [] ∧ ¬(5 ≤ 4 ∧ 4 ≤ s.params.memWords) :=
  ⟨⟨{ State.reset with params := { Params.default with lmax := some 2 }, calls := [.run [0xA7, 0x08] 1024 1024] },
      by decide +kernel⟩,
    ⟨{ State.reset with params := { Params.default with lmax := some 2 }, calls := [.run [0xA7, 0x08, 0] 0 1025] },
      by decide +kernel⟩,
    { State.reset with params := { Params.default with lmax := some 2 }, calls := [.run [0xA7, 0x08, 0] 5 4] },
      by decide +kernel⟩
theorem witness_BetweenPassesOnlyAHostCallActs :
    (State.reset.vm.vstate ≠ .run ∧ State.reset.calls = []) ∧
    (∃ s : State, s.vm.vstate ≠ .run ∧ s.calls = .assemble ['#'] :: []) ∧
    ∃ s : State, s.vm.vstate ≠ .run ∧ s.calls = .assembleRecords [{ name := .load, ops := [6, 632] }] :: [] :=
  ⟨by decide, ⟨{ State.reset with calls := [.assemble ['#']] }, by decide⟩,
    { State.reset with calls := [.assembleRecords [{ name := .load, ops := [6, 632] }]] }, by decide⟩
theorem witness_NothingReachesARunningPass : stored.vm.vstate = .run := rfl
theorem witness_OnlyAnOverlongBufferStops :
    ∃ s : State, s.vm.vstate ≠ .run ∧ s.calls = .run [0xA7, 0x08] 1024 1024 :: [] ∧
      (1024 ≤ 1024 ∧ 1024 ≤ s.params.memWords) ∧ s.params.lmax = some 1 ∧ 1 < [(0xA7 : Byte), 0x08].length :=
  ⟨{ State.reset with params := { Params.default with lmax := some 1 }, calls := [.run [0xA7, 0x08] 1024 1024] },
    by decide +kernel⟩
theorem witness_EveryRunEndsWithAResult :
    (State.reset.vm.vstate ≠ .run ∧ (0 ≤ 1024 ∧ 1024 ≤ State.reset.params.memWords) ∧
      acceptsLength State.reset.params [0xA7, 0x08] = true) ∧ ¬(0 ≤ 1025 ∧ 1025 ≤ State.reset.params.memWords) := by decide
theorem witness_RunResultDependsOnlyOnItsInputs :
    ∃ s u : State, s ≠ u ∧ s.vm.vstate ≠ .run ∧ u.vm.vstate ≠ .run ∧ s.params = u.params :=
  ⟨State.reset, { stored with vm := { stored.vm with vstate := .done, dstate := .done } }, by decide +kernel⟩
theorem witness_EmptyBufferGivesTheZeroSnapshot :
    State.reset.vm.vstate ≠ .run ∧ 0 ≤ 1024 ∧ 1024 ≤ State.reset.params.memWords := by decide
theorem witness_OnlyACompletedRunGivesTheSnapshot :
    ∃ s : State, s.vm.vstate = .done ∧ s.vm.snapStart = some 0 ∧ s.vm.snapEnd = some 1 ∧ s.params.exposeRegs = true ∧
      runResult s = some (.ok [(0, 0)] (some [0, 5, 7, 0, 0, 0, 0, 0])) ∧ readReg s 7 = .ok 0 :=
  ⟨{ stored with vm := { stored.vm with vstate := .done, dstate := .done, snapEnd := some 1 } }, by decide +kernel⟩
/-- The other value of `EXPOSE_REGS`. -/
theorem witness_OnlyACompletedRunGivesTheSnapshot_hidden :
    ∃ s : State, s.vm.vstate = .done ∧ s.vm.snapStart = some 0 ∧ s.vm.snapEnd = some 1 ∧ s.params.exposeRegs = false :=
  ⟨{ stored with params := { Params.default with exposeRegs := false }
                 vm := { stored.vm with vstate := .done, dstate := .done, snapEnd := some 1 } }, by decide +kernel⟩
theorem witness_StepIsOnePassThroughTheFsm : stored.vm.vstate = .run ∧ stored.vm.dstate = .fetch := by decide
theorem witness_EveryStepKeepsTheMachineSafe : Safe stored ∧ ∃ t, step stored = .next t := by
  refine ⟨⟨by decide, ?_, ?_⟩, _, rfl⟩
  · exact
      { memCanonical := by decide
        memInside := by decide
        regsSmall := by simp [stored, running]
        memSmall := by simp [stored, running]
        cursorInside := by decide
        cursorAligned := by decide
        fsmAgrees := rfl
        rangeLegal := fun _ => ⟨0, 1024, rfl, rfl, by decide, by decide⟩
        doneAtEnd := fun h => nomatch h
        faultRecord := fun h => nomatch h
        noFaultRecord := fun _ => ⟨rfl, rfl⟩ }
  · exact
      { writerSafe := ⟨rfl, fun k _ => by simp [stored, running, State.reset, Encoder.reset, Writer.empty, streamBit]⟩
        wholeBytes := rfl
        errRecord := fun h => nomatch h
        noErrRecord := fun _ => ⟨rfl, rfl⟩ }

end Sys2Proof.Tests
end

/-! ## The writer, the encoder and the assembly pass keep their invariants (40_bitstream.md R82, 10_state.md R24) -/

namespace Sys2Proof

theorem Writer.length_writeBit (w : Writer) (b : Bool) :
    (w.writeBit b).wbuf.length = if w.wbits % 8 = 0 then w.wbuf.length + 1 else w.wbuf.length := by
  unfold Writer.writeBit
  split_ifs <;> simp

/-- Appending one bit keeps the invariant of R82: a new byte is opened exactly when the last one is full, and every
position above the new bit is as it was. -/
theorem Writer.writerSafe_writeBit {w : Writer} (h : Machine.WriterSafe w) (b : Bool) :
    Machine.WriterSafe (w.writeBit b) where
  bytes := by
    have hl := h.bytes
    rw [Writer.length_writeBit, Writer.writeBit_wbits]
    split_ifs <;> omega
  zeroAbove k hk := by
    rw [Writer.writeBit_wbits] at hk
    rw [Writer.streamBit_writeBit w b h, if_neg (by omega)]
    exact h.zeroAbove k (by omega)

theorem Writer.writerSafe_write {w : Writer} (h : Machine.WriterSafe w) (v n : Nat) :
    Machine.WriterSafe (w.write v n) := by
  induction n generalizing w v with
  | zero => exact h
  | succ n ih => exact ih (Writer.writerSafe_writeBit h _) _

theorem Writer.writerSafe_writeAll {w : Writer} (h : Machine.WriterSafe w) (ws : List (Nat × Nat)) :
    Machine.WriterSafe (w.writeAll ws) := by
  induction ws generalizing w with
  | nil => exact h
  | cons p ws ih => exact ih (Writer.writerSafe_write h p.1 p.2)

theorem Writer.writeAll_wbits (w : Writer) (ws : List (Nat × Nat)) :
    (w.writeAll ws).wbits = w.wbits + (ws.map Prod.snd).sum := by
  induction ws generalizing w with
  | nil => rfl
  | cons p ws ih => simp only [Writer.writeAll, ih, Writer.write_wbits, List.map_cons, List.sum_cons, Nat.add_assoc]

theorem Writer.writerSafe_empty : Machine.WriterSafe Writer.empty :=
  ⟨rfl, fun k _ => streamBit_of_lenBits_le _ k (Nat.zero_le k)⟩

theorem writerSafe_pack {w : Writer} (h : Machine.WriterSafe w) (m : Mnemonic) (a b : Nat) :
    Machine.WriterSafe (pack w m.row [a, b]) :=
  pack_eq_writeAll w m a b ▸ Writer.writerSafe_writeAll h _

theorem pack_wbits (w : Writer) (m : Mnemonic) (a b : Nat) :
    (pack w m.row [a, b]).wbits = w.wbits + m.row.total := by
  rw [pack_eq_writeAll, Writer.writeAll_wbits, Mnemonic.row_total]
  simp [Nat.add_assoc]

end Sys2Proof

namespace Sys2Proof.Machine

/-- What holds of the encoder between two lines of a pass. -/
def EncoderInPass (e : Encoder) : Prop := EncoderSafe e ∧ e.estate ≠ .failed

/-- What one line or one record may answer within a pass: an encoder the pass can go on with, or one of the four
conditions of R24. -/
def AnswersWithinPass : Except Condition Encoder → Prop
  | .ok e => EncoderInPass e
  | .error c => asmCondition c = true

theorem encoderInPass_reset : EncoderInPass Encoder.reset :=
  ⟨{ writerSafe := Writer.writerSafe_empty
     wholeBytes := rfl
     errRecord := fun h => nomatch h
     noErrRecord := fun _ => ⟨rfl, rfl⟩ }, fun h => nomatch h⟩

/-- Packing one instruction keeps whole bytes, since every row's total is a multiple of 8 (R51, R84). -/
theorem encoderInPass_pack {e : Encoder} (h : EncoderInPass e) (m : Mnemonic) (a b : Nat) (log : List LogEntry) :
    EncoderInPass { e with writer := pack e.writer m.row [a, b], log := log } := by
  obtain ⟨he, hopen⟩ := h
  exact
    ⟨{ writerSafe := writerSafe_pack he.writerSafe m a b
       wholeBytes := by
         have hw := he.wholeBytes
         have ht := m.row_total_mod
         simp only [pack_wbits]
         omega
       errRecord := fun hf => absurd hf hopen
       noErrRecord := he.noErrRecord }, hopen⟩

theorem encoderSafe_final {e : Encoder} (h : EncoderInPass e) : EncoderSafe { e with estate := .final } where
  writerSafe := h.1.writerSafe
  wholeBytes := h.1.wholeBytes
  errRecord := fun hf => nomatch hf
  noErrRecord := fun _ => h.1.noErrRecord h.2

theorem encoderSafe_raiseAsm {c : Condition} (hc : asmCondition c = true) (n : Nat) :
    EncoderSafe (raiseAsm c (n + 1)) where
  writerSafe := Writer.writerSafe_empty
  wholeBytes := rfl
  errRecord := fun _ => ⟨c, n + 1, rfl, rfl, hc, Nat.succ_pos n, rfl, rfl⟩
  noErrRecord := fun h => absurd rfl h

theorem assembleLine_answersWithinPass (line : List Char) {e : Encoder} (h : EncoderInPass e) :
    AnswersWithinPass (assembleLine line e) := by
  rcases assembleLine_cases line e with skip | ⟨m, a, b, -, -, packed⟩ | ⟨c, hc, raised⟩
  · rw [skip]; exact h
  · rw [packed]; exact encoderInPass_pack h m a b _
  · rw [raised]; exact hc

theorem encodeRecord_answersWithinPass (m : Mnemonic) (ops : List Nat) {e : Encoder} (h : EncoderInPass e) :
    AnswersWithinPass (encodeRecord m.row ops e) := by
  rcases encodeRecord_cases m ops e with ⟨-, arity⟩ | ⟨a, b, -, -, overflow⟩ | ⟨a, b, -, -, -, packed⟩
  · rw [arity]; rfl
  · rw [overflow]; rfl
  · rw [packed]; exact encoderInPass_pack h m a b _

theorem encoderSafe_assembleLines (lines : List (List Char)) (n : Nat) {e : Encoder} (h : EncoderInPass e) :
    EncoderSafe (assembleLines lines n e) := by
  induction lines generalizing n e with
  | nil => exact encoderSafe_final h
  | cons line lines ih =>
    have hl := assembleLine_answersWithinPass line h
    unfold assembleLines
    cases hr : assembleLine line e with
    | ok e' => rw [hr] at hl; exact ih (n + 1) hl
    | error c => rw [hr] at hl; exact encoderSafe_raiseAsm hl n

theorem encoderSafe_encodeRecords (rs : List Record) (n : Nat) {e : Encoder} (h : EncoderInPass e) :
    EncoderSafe (encodeRecords rs n e) := by
  induction rs generalizing n e with
  | nil => exact encoderSafe_final h
  | cons r rs ih =>
    have hl := encodeRecord_answersWithinPass r.name r.ops h
    unfold encodeRecords
    cases hr : encodeRecord r.name.row r.ops e with
    | ok e' => rw [hr] at hl; exact ih (n + 1) hl
    | error c => rw [hr] at hl; exact encoderSafe_raiseAsm hl n

end Sys2Proof.Machine

/-! ## The decoder/VM keeps its invariant, one lemma per update (10_state.md R13 to R18, 42_decoder.md R122) -/

namespace Sys2Proof.Machine

/-- A word that memory gives is zero or listed. -/
theorem Memory.read_eq_zero_or_mem (m : Memory) (a : Nat) : m.read a = 0 ∨ (a, m.read a) ∈ m := by
  induction m with
  | nil => exact .inl rfl
  | cons c m ih =>
    obtain ⟨b, w⟩ := c
    by_cases h : a = b
    · subst h; simp [Memory.read]
    · simp only [Memory.read, if_neg h, List.mem_cons]
      exact ih.imp_right .inr

theorem VMSafe.read_small {p : Params} {v : VM} (h : VMSafe p v) (a : Nat) : (v.mem.read a).toNat < 2 ^ 24 := by
  rcases Memory.read_eq_zero_or_mem v.mem a with h0 | hm
  · rw [h0]; decide
  · exact h.memSmall _ hm

theorem VMSafe.reg_small {p : Params} {v : VM} (h : VMSafe p v) {i : Nat} (hi : i < Config.regCount) :
    v.x[i].toNat < 2 ^ 24 :=
  h.regsSmall _ (Vector.mem_toList_iff.mpr (Vector.getElem_mem hi))

theorem countBits_le (v : Word) (n : Nat) : countBits v n ≤ n := by
  induction n with
  | zero => exact Nat.le_refl 0
  | succ n ih =>
    have hb : (v.getLsbD n).toNat ≤ 1 := Bool.toNat_le _
    simp only [countBits]
    omega

/-- A word as a population count fits 24 bits: it is at most 32 (R151). -/
theorem toNat_ofNat_popcount_small (v : Word) : (BitVec.ofNat 32 (popcount v)).toNat < 2 ^ 24 := by
  have hle : popcount v ≤ 32 := countBits_le v 32
  rw [BitVec.toNat_ofNat]
  omega

/-- Writing a small word to a register. -/
theorem Safe.setRegs {s : State} (h : Safe s) (i : Nat) {v : Word} (hv : v.toNat < 2 ^ 24) :
    Safe (s.setRegs (s.vm.x.setIfInBounds i v)) where
  paramsLegal := h.paramsLegal
  encSafe := h.encSafe
  vmSafe :=
    { h.vmSafe with
      regsSmall := fun w hw => by
        rw [State.setRegs_x, Vector.toList_setIfInBounds] at hw
        rcases List.mem_or_eq_of_mem_set hw with old | rfl
        · exact h.vmSafe.regsSmall w old
        · exact hv }

/-- Writing a small word to a memory word that exists. -/
theorem Safe.setMem {s : State} (h : Safe s) {a : Nat} (ha : a < s.params.memWords) {v : Word} (hv : v.toNat < 2 ^ 24) :
    Safe (s.setMem (s.vm.mem.write a v)) where
  paramsLegal := h.paramsLegal
  encSafe := h.encSafe
  vmSafe :=
    { h.vmSafe with
      memCanonical := Memory.wf_write _ _ _ h.vmSafe.memCanonical
      memInside := fun c hc => by
        rcases Memory.mem_write _ _ _ c hc with old | ⟨rfl, -⟩
        · exact h.vmSafe.memInside c old
        · exact ha
      memSmall := fun c hc => by
        rcases Memory.mem_write _ _ _ c hc with old | ⟨rfl, -⟩
        · exact h.vmSafe.memSmall c old
        · exact hv }

/-- Fetching a whole instruction of a run in progress: the cursor moves to a byte boundary inside the buffer. -/
theorem Safe.setFetch {s : State} (h : Safe s) (hrun : s.vm.vstate = .run) {pc : Nat} (l : Latches)
    (hin : pc ≤ lenBits s.vm.ibuf) (halign : pc % 8 = 0) : Safe (s.setFetch pc l) where
  paramsLegal := h.paramsLegal
  encSafe := h.encSafe
  vmSafe :=
    { h.vmSafe with
      cursorInside := hin
      cursorAligned := fun _ => halign
      doneAtEnd := fun hd => by rw [State.setFetch_vstate, hrun] at hd; cases hd }

/-- Fault entry with one of the three conditions, at the start of an instruction, wherever inside the buffer decoding
stopped (R170, R173). -/
theorem Safe.raiseRun_setFetch {s : State} (h : Safe s) {c : Condition} (hc : runCondition c = true) {n : Nat}
    (hn : n ≤ lenBits s.vm.ibuf) (halign : n % 8 = 0) {pc : Nat} (l : Latches) (hin : pc ≤ lenBits s.vm.ibuf) :
    Safe (raiseRun c (some n) (s.setFetch pc l)) where
  paramsLegal := h.paramsLegal
  encSafe := h.encSafe
  vmSafe :=
    { memCanonical := h.vmSafe.memCanonical
      memInside := h.vmSafe.memInside
      regsSmall := h.vmSafe.regsSmall
      memSmall := h.vmSafe.memSmall
      cursorInside := hin
      cursorAligned := fun hf => absurd rfl hf
      fsmAgrees := rfl
      rangeLegal := fun hr => by rcases hr with hr | hr <;> cases hr
      doneAtEnd := fun hd => nomatch hd
      faultRecord := fun _ => ⟨c, n, rfl, rfl, hc, halign, hn⟩
      noFaultRecord := fun hf => absurd rfl hf }

/-- The normal end of a run in progress, with the cursor at the end of the buffer (R127). -/
theorem Safe.finishRun {s : State} (h : Safe s) (hrun : s.vm.vstate = .run) (hend : s.vm.pc = lenBits s.vm.ibuf) :
    Safe (finishRun s) where
  paramsLegal := h.paramsLegal
  encSafe := h.encSafe
  vmSafe :=
    { h.vmSafe with
      cursorAligned := fun _ => h.vmSafe.cursorAligned (by rw [hrun]; decide)
      fsmAgrees := rfl
      rangeLegal := fun _ => h.vmSafe.rangeLegal (.inl hrun)
      doneAtEnd := fun _ => hend
      faultRecord := fun hf => nomatch hf
      noFaultRecord := fun _ => h.vmSafe.noFaultRecord (by rw [hrun]; decide) }

/-- Replacing the encoder by a safe one and the waiting calls by any. -/
theorem Safe.setEnc {s : State} (h : Safe s) {e : Encoder} (he : EncoderSafe e) (calls : List HostCall) :
    Safe { s with enc := e, calls := calls } :=
  ⟨h.paramsLegal, h.vmSafe, he⟩

/-! ## A decoder/VM just loaded (42_decoder.md R125, 70_reset_and_hazards.md R191) -/

theorem VM.reset_regs_zero {w : Word} (h : w ∈ VM.reset.x.toList) : w = 0 := by
  rw [Vector.mem_toList_iff] at h
  exact Vector.eq_of_mem_replicate h

theorem vmSafe_loadedVM (p : Params) (buf : List Byte) (a b : Nat) : VMSafe p (loadedVM buf a b) where
  memCanonical := Memory.wf_nil
  memInside := fun _ hc => nomatch hc
  regsSmall := fun w hw => by rw [VM.reset_regs_zero hw]; decide
  memSmall := fun _ hc => nomatch hc
  cursorInside := Nat.zero_le _
  cursorAligned := fun _ => rfl
  fsmAgrees := rfl
  rangeLegal := fun hr => by rcases hr with hr | hr <;> cases hr
  doneAtEnd := fun hd => nomatch hd
  faultRecord := fun hf => nomatch hf
  noFaultRecord := fun _ => ⟨rfl, rfl⟩

theorem vmSafe_admitted {p : Params} {a b : Nat} (hr : a ≤ b ∧ b ≤ p.memWords) (buf : List Byte) :
    VMSafe p { loadedVM buf a b with vstate := .run, dstate := .fetch } :=
  { vmSafe_loadedVM p buf a b with
    cursorAligned := fun _ => rfl
    fsmAgrees := rfl
    rangeLegal := fun _ => ⟨a, b, rfl, rfl, hr.1, hr.2⟩
    doneAtEnd := fun hd => nomatch hd
    faultRecord := fun hf => nomatch hf
    noFaultRecord := fun _ => ⟨rfl, rfl⟩ }

/-! ## Each way a step can go keeps the machine safe -/

/-- Executing a well-formed instruction, whose start `IBASE` records, in a safe state. -/
theorem exec_keeps_safe {i : Instr} {s t : State} (hwf : i.WellFormed) (h : Safe s)
    {n : Nat} (hbase : s.vm.latches.ibase = some n) (hn : n ≤ lenBits s.vm.ibuf) (halign : n % 8 = 0)
    (he : exec i s = .next t) : Safe t := by
  rcases exec_cases i s with ⟨d, v, -, e, hv⟩ | ⟨a, v, ha, e, hv⟩ | e <;> rw [e] at he <;> cases he
  · refine h.setRegs d ?_
    rcases hv with ⟨c, rfl, rfl⟩ | ⟨r, a, -, rfl⟩
    · have hc : c < 2 ^ 24 := by
        simp only [Instr.WellFormed, Instr.wellFormed, Bool.and_eq_true, decide_eq_true_eq] at hwf
        exact hwf.2
      rw [BitVec.toNat_ofNat]
      omega
    · exact h.vmSafe.read_small a
  · refine h.setMem ha ?_
    rcases hv with ⟨d, r, hr, -, rfl⟩ | ⟨d, m, -, rfl⟩
    · exact h.vmSafe.reg_small hr
    · exact toNat_ofNat_popcount_small _
  · rw [hbase]
    exact h.raiseRun_setFetch rfl hn halign s.vm.latches h.vmSafe.cursorInside

theorem runTurn_keeps_safe {s t : State} (h : Safe s) (hrun : s.vm.vstate = .run) (he : runTurn s = .next t) :
    Safe t := by
  have hin := h.vmSafe.cursorInside
  have halign := h.vmSafe.cursorAligned (by rw [hrun]; decide)
  rcases runTurn_cases s with
    ⟨hend, e⟩ | ⟨-, m, i, hlen, hwf, -, -, e⟩ | ⟨-, l, p, c, hp, -, hc, -, e⟩ <;> rw [e] at he
  · cases he
    exact h.finishRun hrun (Nat.le_antisymm hin hend)
  · have hnext : (s.vm.pc + m.row.total) % 8 = 0 := by have := m.row_total_mod; omega
    exact exec_keeps_safe hwf (h.setFetch hrun _ hlen hnext) rfl hin halign he
  · cases he
    refine h.raiseRun_setFetch ?_ hin halign l hp
    rcases hc with rfl | rfl <;> rfl

theorem admitRun_keeps_safe {s t : State} (h : Safe s) (buf : List Byte) (a b : Nat)
    (he : admitRun buf a b s = .next t) : Safe t := by
  rcases admitRun_cases buf a b s with ⟨-, e⟩ | ⟨-, -, e⟩ | ⟨hr, -, e⟩ <;> rw [e] at he <;> cases he
  · have hloaded : Safe { s with vm := loadedVM buf a b } := ⟨h.paramsLegal, vmSafe_loadedVM _ buf a b, h.encSafe⟩
    exact hloaded.raiseRun_setFetch rfl (Nat.zero_le _) rfl Latches.empty (Nat.zero_le _)
  · exact ⟨h.paramsLegal, vmSafe_admitted hr buf, h.encSafe⟩

theorem takeCall_keeps_safe {s t : State} (h : Safe s) (he : takeCall s = .next t) : Safe t := by
  rcases takeCall_cases s with
    ⟨-, e⟩ | ⟨text, rest, -, e⟩ | ⟨rs, rest, -, e⟩ | ⟨buf, a, b, rest, -, e⟩ <;> rw [e] at he
  · cases he; exact h
  · cases he; exact h.setEnc (encoderSafe_assembleLines (splitLines text) 0 encoderInPass_reset) rest
  · cases he; exact h.setEnc (encoderSafe_encodeRecords rs 0 encoderInPass_reset) rest
  · exact admitRun_keeps_safe (h.setEnc h.encSafe rest) buf a b he

/-- Settles O59: a step is a turn of the run loop or the taking of a host call, and each keeps the invariant. -/
theorem everyStepKeepsTheMachineSafe : Obligations.EveryStepKeepsTheMachineSafe := by
  intro s t h he
  by_cases hrun : s.vm.vstate = .run
  · exact runTurn_keeps_safe h hrun (step_of_run hrun ▸ he)
  · exact takeCall_keeps_safe h (step_of_not_run hrun ▸ he)

/-! ## The one stop (00_scope.md R5, log entry 3) -/

theorem exec_next (i : Instr) (s : State) : ∃ t, exec i s = .next t := by
  rcases exec_cases i s with ⟨_, _, -, e, -⟩ | ⟨_, _, -, e, -⟩ | e <;> exact ⟨_, e⟩

theorem runTurn_next (s : State) : ∃ t, runTurn s = .next t := by
  rcases runTurn_cases s with ⟨-, e⟩ | ⟨-, m, i, -, -, -, -, e⟩ | ⟨-, l, p, c, -, -, -, -, e⟩
  · exact ⟨_, e⟩
  · rw [e]; exact exec_next i _
  · exact ⟨_, e⟩

/-- A state whose oldest call is a run with a legal range and a buffer longer than a finite `LMAX`. -/
def OverlongRunWaits (s : State) : Prop :=
  ∃ buf a b rest n, s.calls = .run buf a b :: rest ∧ (a ≤ b ∧ b ≤ s.params.memWords) ∧ s.params.lmax = some n ∧
    n < buf.length

/-- Taking a call goes on, unless an overlong run waits. -/
theorem takeCall_next_or_fault (s : State) :
    (¬ OverlongRunWaits s ∧ ∃ t, takeCall s = .next t) ∨ (OverlongRunWaits s ∧ takeCall s = .fault .bufferTooLong) := by
  rcases takeCall_cases s with
    ⟨hc, e⟩ | ⟨text, rest, hc, e⟩ | ⟨rs, rest, hc, e⟩ | ⟨buf, a, b, rest, hc, e⟩
  · exact .inl ⟨by simp [OverlongRunWaits, hc], _, e⟩
  · exact .inl ⟨by simp [OverlongRunWaits, hc], _, e⟩
  · exact .inl ⟨by simp [OverlongRunWaits, hc], _, e⟩
  · have waits : OverlongRunWaits s ↔ (a ≤ b ∧ b ≤ s.params.memWords) ∧ acceptsLength s.params buf = false := by
      simp only [OverlongRunWaits, hc, acceptsLength_eq_false]
      constructor
      · rintro ⟨_, _, _, _, n, ⟨⟩, hr, hn⟩
        exact ⟨hr, n, hn⟩
      · rintro ⟨hr, n, hn⟩
        exact ⟨buf, a, b, rest, n, rfl, hr, hn⟩
    rw [waits, e]
    rcases admitRun_cases buf a b { s with calls := rest } with ⟨hr, e'⟩ | ⟨hr, hl, e'⟩ | ⟨-, hl, e'⟩
    · exact .inl ⟨fun h => hr h.1, _, e'⟩
    · exact .inr ⟨⟨hr, hl⟩, e'⟩
    · exact .inl ⟨fun h => Bool.false_ne_true (h.2.symm.trans hl), _, e'⟩

/-- Settles O52: a turn of the run loop always has a next state, and the taking of a call stops exactly on an overlong
run. -/
theorem onlyAnOverlongBufferStops : Obligations.OnlyAnOverlongBufferStops := by
  intro s
  change _ ∧ (_ ↔ s.vm.vstate ≠ .run ∧ OverlongRunWaits s)
  by_cases hrun : s.vm.vstate = .run
  · obtain ⟨t, e⟩ := runTurn_next s
    simp [step_of_run hrun, e, hrun]
  · rcases takeCall_next_or_fault s with ⟨hw, t, e⟩ | ⟨hw, e⟩
    · simp [step_of_not_run hrun, e, hw]
    · rw [step_of_not_run hrun, e]
      exact ⟨fun _ hr => (nomatch hr), fun _ => ⟨hrun, hw⟩, fun _ => ⟨_, rfl⟩⟩

/-! ## Register access (00_scope.md R8, 10_state.md R11) -/

theorem writeReg_ok (s : State) (i : Nat) (v : Word) (h : i < Config.regCount) :
    writeReg s i v = .ok (s.setRegs (s.vm.x.setIfInBounds i v)) := if_pos h

theorem writeReg_error (s : State) (i : Nat) (v : Word) (h : Config.regCount ≤ i) :
    writeReg s i v = .error .addressOutOfBounds := if_neg (Nat.not_lt.mpr h)

/-- Settles O26: the two sides of the bound `R`. -/
theorem registerAccessIsBoundsChecked : Obligations.RegisterAccessIsBoundsChecked := by
  intro s i v
  refine ⟨fun hge => ⟨readReg_error s i hge, writeReg_error s i v hge⟩,
    fun hlt => ⟨⟨_, readReg_ok s i hlt⟩, _, writeReg_ok s i v hlt, ?_, fun j hj => ?_, rfl⟩⟩
  · rw [readReg_setIfInBounds s i i v hlt, if_pos rfl]
  · rw [readReg_setIfInBounds s i j v hlt, if_neg hj]

end Sys2Proof.Machine

/-! ## The cursor across one step of a run (10_state.md R14, 43_load_read_write.md R146) -/

namespace Sys2Proof.Machine

/-- No instruction's rule moves the cursor, whether it completes or faults: decoding alone does (R146). -/
theorem exec_pc {i : Instr} {s t : State} (h : exec i s = .next t) : t.vm.pc = s.vm.pc := by
  rcases exec_cases i s with ⟨d, v, -, e, -⟩ | ⟨a, v, -, e, -⟩ | e <;> rw [e] at h <;> cases h
  · exact State.setRegs_pc _ _
  · exact State.setMem_pc _ _
  · exact raiseRun_pc _ _ _

/-- Settles O43: of the three turns of the run loop only the one that executes an instruction stays in the run, and its
rule leaves the cursor where decoding put it. -/
theorem cursorAdvancesByTheInstructionLength : Obligations.CursorAdvancesByTheInstructionLength := by
  intro s t hrun hstep hstay
  rw [step_of_run hrun] at hstep
  rcases runTurn_cases s with
    ⟨-, e⟩ | ⟨-, m, i, hlen, hwf, hrow, hdec, e⟩ | ⟨-, l, p, c, -, -, -, -, e⟩ <;> rw [e] at hstep
  · cases hstep
    rw [finishRun_vstate] at hstay
    cases hstay
  · have hpc : t.vm.pc = s.vm.pc + m.row.total := exec_pc hstep
    rw [hpc]
    exact ⟨i, _, hdec, hwf, by rw [hrow], hrow ▸ m.row_total_ge, hlen⟩
  · cases hstep
    rw [raiseRun_vstate] at hstay
    cases hstay

/-! ## The state after reset (10_state.md R28, 70_reset_and_hazards.md R190 to R192) -/

theorem readReg_reset {i : Nat} (h : i < Config.regCount) : readReg State.reset i = .ok 0 := by
  have hx : State.reset.vm.x[i] = 0 := Vector.getElem_replicate h
  rw [readReg_ok _ _ h, hx]

/-- No word is listed after reset, so every word reads as the reset value (R16). -/
theorem mem_read_reset (a : Nat) : State.reset.vm.mem.read a = 0 :=
  Memory.read_of_not_listed _ a fun _ hc => nomatch hc

/-- Settles O58: the registers and the memory by what they read, every other item as `State.reset` holds it. -/
theorem resetLeavesTheStatedValues : Obligations.ResetLeavesTheStatedValues :=
  ⟨fun _ hi => readReg_reset hi, mem_read_reset, rfl, rfl, rfl, rfl, rfl, rfl, rfl, rfl, rfl, rfl, rfl, rfl, rfl⟩

/-- The reset decoder/VM is one just loaded with an empty buffer, but for the range, which nothing outside a run needs. -/
theorem vmSafe_reset (p : Params) : VMSafe p VM.reset :=
  { vmSafe_loadedVM p [] 0 0 with
    rangeLegal := fun hr => by rcases hr with hr | hr <;> cases hr }

/-- Settles O60: the default parameters are legal (log entry 1), and both sides safe as reset leaves them. -/
theorem resetIsSafe : Obligations.ResetIsSafe :=
  ⟨by decide, vmSafe_reset _, encoderInPass_reset.1⟩

end Sys2Proof.Machine

/-! ## Data memory access (20_memory.md R33, R34, R39, R41) -/

namespace Sys2Proof.Machine

/-- A word reads as it was last written (R39, R41 (c)). Storing zero removes the entry, and then only the rising order of
the addresses says that no later entry lists the same one. -/
theorem Memory.read_write_self {m : Memory} (hs : m.Pairwise (fun c d => c.1 < d.1)) (a : Nat) (v : Word) :
    (m.write a v).read a = v := by
  induction m with
  | nil => by_cases hv : v = Memory.unwritten <;> simp [Memory.write, Memory.read, hv]
  | cons c m ih =>
    obtain ⟨b, w⟩ := c
    obtain ⟨hb, hm⟩ := List.pairwise_cons.mp hs
    simp only [Memory.write]
    split_ifs with hlt hv heq hv
    · rw [hv]
      refine Memory.read_of_not_listed _ a fun d hd => ?_
      rcases List.mem_cons.mp hd with rfl | hd
      · exact Nat.ne_of_gt hlt
      · exact Nat.ne_of_gt (Nat.lt_trans hlt (hb d hd))
    · exact if_pos rfl
    · rw [hv]
      exact Memory.read_of_not_listed m a fun d hd => heq ▸ Nat.ne_of_gt (hb d hd)
    · exact if_pos rfl
    · rw [Memory.read, if_neg heq]
      exact ih hm

/-- A word that is listed reads as listed: with rising addresses no earlier entry hides it. -/
theorem Memory.read_of_mem {m : Memory} (hs : m.Pairwise (fun c d => c.1 < d.1)) {a : Nat} {v : Word}
    (h : (a, v) ∈ m) : m.read a = v := by
  induction m with
  | nil => cases h
  | cons c m ih =>
    obtain ⟨b, w⟩ := c
    obtain ⟨hb, hm⟩ := List.pairwise_cons.mp hs
    rcases List.mem_cons.mp h with heq | hmem
    · cases heq
      exact if_pos rfl
    · have hne : a ≠ b := Nat.ne_of_gt (hb _ hmem)
      rw [Memory.read, if_neg hne]
      exact ih hm hmem

/-- A canonical memory lists exactly the words that do not read as zero. -/
theorem Memory.mem_iff_read {m : Memory} (h : m.wf) (a : Nat) (v : Word) : (a, v) ∈ m ↔ m.read a = v ∧ v ≠ 0 := by
  obtain ⟨hs, hnz⟩ := h
  constructor
  · exact fun hm => ⟨Memory.read_of_mem hs hm, hnz _ hm⟩
  · rintro ⟨rfl, hne⟩
    exact (Memory.read_eq_zero_or_mem m a).resolve_left hne

/-- Canonical memories that read alike are equal (log entry 6): what they read says which entries they list, and the rising
order of the addresses says in which order. -/
theorem Memory.eq_of_read_eq {m m' : Memory} (h : m.wf) (h' : m'.wf) (heq : ∀ b, m.read b = m'.read b) : m = m' := by
  have irrefl : Std.Irrefl (fun c d : Nat × Word => c.1 < d.1) := ⟨fun _ => Nat.lt_irrefl _⟩
  have antisymm : Std.Antisymm (fun c d : Nat × Word => c.1 < d.1) := ⟨fun _ _ hcd hdc => absurd hcd (Nat.lt_asymm hdc)⟩
  refine h.1.eq_of_mem_iff h'.1 fun ⟨a, v⟩ => ?_
  rw [Memory.mem_iff_read h, Memory.mem_iff_read h', heq]

/-- Settles O29: the written word by the rising order, every other word in any memory, and equality by what is listed. -/
theorem memoryReadsBackTheLastWrite : Obligations.MemoryReadsBackTheLastWrite := by
  intro m m' a v h h'
  refine ⟨Memory.wf_write m a v h, fun b => ?_, Memory.eq_of_read_eq h h'⟩
  split_ifs with hb
  · rw [hb, Memory.read_write_self h.1]
  · exact Memory.read_write_of_ne m a b v hb

/-- Settles O27: the two sides of the bound `M`. -/
theorem memReadIsBoundsChecked : Obligations.MemReadIsBoundsChecked := by
  intro s a
  rcases memRead_cases s a with ⟨hlt, e⟩ | ⟨hge, e⟩
  · rw [e, if_neg (Nat.not_le.mpr hlt)]
  · rw [e, if_pos hge]

/-- Settles O28: the two sides of the bound `M`; below it the state changes in its memory alone. -/
theorem memWriteIsBoundsChecked : Obligations.MemWriteIsBoundsChecked := by
  intro s a v h
  rcases memWrite_cases s a v with ⟨hlt, e⟩ | ⟨hge, e⟩
  · exact ⟨fun hge => absurd hlt (Nat.not_lt.mpr hge), fun _ =>
      ⟨_, e, Memory.read_write_self h.1 a v, fun b hb => Memory.read_write_of_ne s.vm.mem a b v hb, rfl⟩⟩
  · exact ⟨fun _ => e, fun hlt => absurd hlt (Nat.not_lt.mpr hge)⟩

end Sys2Proof.Machine

/-! ## Bytes, bits and the writer as numbers (40_bitstream.md R83, R85, R86) -/

namespace Sys2Proof

@[simp] theorem lenBits_append (xs ys : List Byte) : lenBits (xs ++ ys) = lenBits xs + lenBits ys := by
  simp [lenBits, Nat.mul_add]

/-- A byte sequence is determined by its length and the number it reads as. -/
theorem eq_of_natOfBytes_eq {xs ys : List Byte} (hlen : xs.length = ys.length)
    (h : natOfBytes xs = natOfBytes ys) : xs = ys := by
  induction xs generalizing ys with
  | nil => exact (List.length_eq_zero_iff.mp hlen.symm).symm
  | cons x xs ih =>
    cases ys with
    | nil => cases hlen
    | cons y ys =>
      have hx := x.isLt
      have hy := y.isLt
      simp only [natOfBytes] at h
      rw [BitVec.eq_of_toNat_eq (show x.toNat = y.toNat by omega), ih (Nat.succ.inj hlen) (by omega)]

theorem streamBit_append_left (xs ys : List Byte) {k : Nat} (h : k < lenBits xs) :
    streamBit (xs ++ ys) k = streamBit xs k := by
  have hk : k / 8 < xs.length := by unfold lenBits at h; omega
  simp [streamBit, List.getD_eq_getElem?_getD, List.getElem?_append_left hk]

theorem streamBit_append_right (xs ys : List Byte) (k : Nat) :
    streamBit (xs ++ ys) (lenBits xs + k) = streamBit ys k := by
  have hdiv : (lenBits xs + k) / 8 = xs.length + k / 8 := by unfold lenBits; omega
  have hmod : (lenBits xs + k) % 8 = k % 8 := by unfold lenBits; omega
  rw [streamBit, streamBit, hdiv, hmod, List.getD_eq_getElem?_getD, List.getElem?_append_right (Nat.le_add_right _ _),
    Nat.add_sub_cancel_left, List.getD_eq_getElem?_getD]

/-- Reading as many bits as a part of a buffer has, from where it starts, gives the number the part reads as. -/
theorem bitsAt_middle (before mid after : List Byte) :
    bitsAt (before ++ mid ++ after) (lenBits before) (lenBits mid) = natOfBytes mid := by
  apply Nat.eq_of_testBit_eq
  intro k
  rw [testBit_bitsAt, testBit_natOfBytes]
  by_cases hk : k < lenBits mid
  · rw [decide_eq_true hk, Bool.true_and, List.append_assoc, streamBit_append_right, streamBit_append_left _ _ hk]
  · rw [decide_eq_false hk, Bool.false_and, streamBit_of_lenBits_le _ _ (Nat.le_of_not_lt hk)]

/-- Two reads one after the other are one read of both widths. -/
theorem bitsAt_add (buf : List Byte) (pc n k : Nat) :
    bitsAt buf pc (n + k) = bitsAt buf pc n + 2 ^ n * bitsAt buf (pc + n) k := by
  induction n generalizing pc with
  | zero => simp [bitsAt]
  | succ n ih =>
    rw [Nat.succ_add, bitsAt, ih, bitsAt, Nat.pow_succ, Nat.add_assoc pc 1 n, Nat.add_comm 1 n]
    ring

theorem Writer.natOfBytes_lt {w : Writer} (h : Machine.WriterSafe w) : natOfBytes w.wbuf < 2 ^ w.wbits :=
  Nat.lt_pow_two_of_testBit _ fun k hk => by rw [testBit_natOfBytes, h.zeroAbove k hk]

theorem Writer.natOfBytes_writeBit {w : Writer} (h : Machine.WriterSafe w) (b : Bool) :
    natOfBytes (w.writeBit b).wbuf = natOfBytes w.wbuf + b.toNat * 2 ^ w.wbits := by
  rw [Nat.add_comm, Nat.mul_comm]
  apply Nat.eq_of_testBit_eq
  intro k
  rw [Nat.testBit_two_pow_mul_add _ (Writer.natOfBytes_lt h), testBit_natOfBytes, testBit_natOfBytes,
    Writer.streamBit_writeBit w b h]
  rcases Nat.lt_trichotomy k w.wbits with hk | rfl | hk
  · rw [if_neg hk.ne, if_pos hk]
  · cases b <;> simp
  · have hne : k - w.wbits ≠ 0 := by omega
    rw [if_neg hk.ne', if_neg (by omega), h.zeroAbove k hk.le]
    exact (Nat.testBit_lt_two_pow (b.toNat_le.trans_lt (Nat.one_lt_two_pow hne))).symm

/-- A write adds `(value mod 2^width) * 2^wbits` to the stream read as one number (R83). -/
theorem Writer.natOfBytes_write {w : Writer} (h : Machine.WriterSafe w) (v n : Nat) :
    natOfBytes (w.write v n).wbuf = natOfBytes w.wbuf + v % 2 ^ n * 2 ^ w.wbits := by
  induction n generalizing w v with
  | zero => simp [Writer.write, Nat.mod_one]
  | succ n ih =>
    have hbit : (v.testBit 0).toNat = v % 2 := by rw [Nat.toNat_testBit, Nat.pow_zero, Nat.div_one]
    have hsplit : v % 2 ^ (n + 1) = v % 2 + 2 * (v / 2 % 2 ^ n) := by rw [Nat.pow_succ', Nat.mod_mul]
    rw [Writer.write, ih (Writer.writerSafe_writeBit h _), Writer.natOfBytes_writeBit h, Writer.writeBit_wbits, hbit,
      hsplit, Nat.pow_succ]
    ring

/-- The number a sequence of fields `(value, width)` packs to, the first the least significant. -/
def fieldsNat : List (Nat × Nat) → Nat
  | [] => 0
  | (v, n) :: rest => v % 2 ^ n + 2 ^ n * fieldsNat rest

/-- A sequence of writes adds its fields' number above the bits already there (R83, R88). -/
theorem Writer.natOfBytes_writeAll {w : Writer} (h : Machine.WriterSafe w) (ws : List (Nat × Nat)) :
    natOfBytes (w.writeAll ws).wbuf = natOfBytes w.wbuf + fieldsNat ws * 2 ^ w.wbits := by
  induction ws generalizing w with
  | nil => simp [Writer.writeAll, fieldsNat]
  | cons p ws ih =>
    rw [Writer.writeAll, ih (Writer.writerSafe_write h _ _), Writer.natOfBytes_write h, Writer.write_wbits, fieldsNat,
      Nat.pow_add]
    ring

end Sys2Proof

/-! ## The instruction word (30_encoding.md R51 to R62) -/

namespace Sys2Proof

/-- Settles O6: a check of the four rows. -/
theorem descriptorKeepsItsInvariants : Obligations.DescriptorKeepsItsInvariants := by
  refine ⟨by decide, fun r hr => ?_⟩
  simp only [descriptor, List.mem_cons, List.not_mem_nil, or_false] at hr
  rcases hr with rfl | rfl | rfl | rfl <;> decide

theorem lookupRow_eq_none_iff (c : BitVec 7) : lookupRow c = none ↔ ∀ m : Mnemonic, c ≠ m.row.code := by
  constructor
  · rintro h m rfl
    rw [lookupRow_code] at h
    cases h
  · intro h
    cases hl : lookupRow c with
    | none => rfl
    | some r =>
      obtain ⟨m, -, hc⟩ := lookupRow_eq_some hl
      exact absurd hc (h m)

/-- Settles O7: each row is found by its code, and a code that selects nothing is none of the four. -/
theorem fourCodesSelectARow : Obligations.FourCodesSelectARow := by
  refine ⟨lookupRow_code .load, lookupRow_code .read, lookupRow_code .write, lookupRow_code .popcnt, fun c => ?_⟩
  rw [lookupRow_eq_none_iff]
  constructor
  · exact fun h => ⟨h .load, h .popcnt, h .write, h .read⟩
  · rintro ⟨hload, hpopcnt, hwrite, hread⟩ m
    cases m
    exacts [hload, hread, hwrite, hpopcnt]

/-- The integer of a row's format (R54 to R57): opcode, first field, second field, zero tail. -/
def formatWord (m : Mnemonic) (a b : Nat) : Nat := m.row.code.toNat + 2 ^ 7 * (a + 2 ^ m.row.width 0 * b)

theorem fieldsNat_instruction {m : Mnemonic} {a b : Nat} (ha : a < 2 ^ m.row.width 0) (hb : b < 2 ^ m.row.width 1) :
    fieldsNat [(m.row.code.toNat, 7), (a, m.row.width 0), (b, m.row.width 1), (0, m.row.resv)] = formatWord m a b := by
  simp only [fieldsNat, formatWord, Nat.mod_eq_of_lt m.row.code.isLt, Nat.mod_eq_of_lt ha, Nat.mod_eq_of_lt hb,
    Nat.zero_mod, Nat.mul_zero, Nat.add_zero]

theorem Instr.ofFields_row (m : Mnemonic) (a b : Nat) : (Instr.ofFields m a b).row = m.row := by
  rw [Instr.row, Instr.ofFields_mnemonic]

theorem encode_ofFields (m : Mnemonic) (a b : Nat) :
    encode (Instr.ofFields m a b) = (pack Writer.empty m.row [a, b]).wbuf := by
  rw [encode, Instr.ofFields_row, Instr.ofFields_operands, Writer.finalize]

/-- The bytes of an instruction read as the integer of its format. -/
theorem natOfBytes_encode {m : Mnemonic} {a b : Nat} (ha : a < 2 ^ m.row.width 0) (hb : b < 2 ^ m.row.width 1) :
    natOfBytes (encode (Instr.ofFields m a b)) = formatWord m a b := by
  rw [encode_ofFields, pack_eq_writeAll, Writer.natOfBytes_writeAll Writer.writerSafe_empty, fieldsNat_instruction ha hb]
  simp [Writer.empty, natOfBytes]

theorem Instr.exists_ofFields_of_wellFormed {i : Instr} (h : i.WellFormed) :
    ∃ m a b, i = Instr.ofFields m a b ∧ a < 2 ^ m.row.width 0 ∧ b < 2 ^ m.row.width 1 := by
  obtain ⟨a, b, -, hi⟩ := i.eq_ofFields
  rw [hi, Instr.ofFields_wellFormed] at h
  exact ⟨i.mnemonic, a, b, hi, h⟩

theorem lenBits_encode (i : Instr) : lenBits (encode i) = i.row.total := by
  obtain ⟨a, b, -, hi⟩ := i.eq_ofFields
  have hbytes := (writerSafe_pack Writer.writerSafe_empty i.mnemonic a b).bytes
  have hmod := i.mnemonic.row_total_mod
  rw [pack_wbits, show Writer.empty.wbits = 0 from rfl, Nat.zero_add] at hbytes
  rw [hi, encode_ofFields, Instr.ofFields_row, lenBits, hbytes]
  omega

theorem length_encode (i : Instr) : (encode i).length = i.byteLength := by
  have h := lenBits_encode i
  unfold lenBits at h
  unfold Instr.byteLength
  omega

/-- Settles O8: the row's length in bytes, and the four formats written out. -/
theorem encodingIsTheFormatWord : Obligations.EncodingIsTheFormatWord := by
  intro i hwf
  refine ⟨length_encode i, ?_⟩
  obtain ⟨m, a, b, rfl, ha, hb⟩ := Instr.exists_ofFields_of_wellFormed hwf
  rw [natOfBytes_encode ha hb]
  cases m <;> simp [formatWord, Instr.ofFields, Mnemonic.row, Row.width] <;> omega

/-! ## Decoding and encoding are inverse (30_encoding.md R53, R59, R62) -/

/-- The instruction word at a cursor, cut into opcode, first field, second field and tail. -/
theorem bitsAt_row_total (buf : List Byte) (pc : Nat) (m : Mnemonic) :
    bitsAt buf pc m.row.total = bitsAt buf pc 7 + 2 ^ 7 * (bitsAt buf (pc + 7) (m.row.width 0) +
      2 ^ m.row.width 0 * (bitsAt buf (pc + 7 + m.row.width 0) (m.row.width 1) +
        2 ^ m.row.width 1 * bitsAt buf (pc + m.row.total - m.row.resv) m.row.resv)) := by
  have htail : pc + m.row.total - m.row.resv = pc + 7 + m.row.width 0 + m.row.width 1 := by
    have := m.row_total
    omega
  rw [htail, m.row_total, Nat.add_assoc 7, Nat.add_assoc 7, Nat.add_assoc (m.row.width 0), bitsAt_add, bitsAt_add,
    bitsAt_add]

/-- Digits in base `2^n` are unique. -/
theorem add_two_pow_mul_inj {n x y x' y' : Nat} (hx : x < 2 ^ n) (hx' : x' < 2 ^ n) :
    x + 2 ^ n * y = x' + 2 ^ n * y' ↔ x = x' ∧ y = y' := by
  constructor
  · intro h
    have hmod := congrArg (· % 2 ^ n) h
    have hdiv := congrArg (· / 2 ^ n) h
    simp only [Nat.add_mul_mod_self_left, Nat.mod_eq_of_lt hx, Nat.mod_eq_of_lt hx'] at hmod
    simp only [Nat.add_mul_div_left _ _ (Nat.two_pow_pos n), Nat.div_eq_of_lt hx, Nat.div_eq_of_lt hx',
      Nat.zero_add] at hdiv
    exact ⟨hmod, hdiv⟩
  · rintro ⟨rfl, rfl⟩
    rfl

/-- The word at a cursor is the format of `a` and `b` exactly if each part is the field written there and the tail is
zero. Decoding reads this from left to right, encoding from right to left. -/
theorem bitsAt_eq_formatWord_iff (buf : List Byte) (pc : Nat) {m : Mnemonic} {a b : Nat} (ha : a < 2 ^ m.row.width 0)
    (hb : b < 2 ^ m.row.width 1) :
    bitsAt buf pc m.row.total = formatWord m a b ↔
      bitsAt buf pc 7 = m.row.code.toNat ∧ bitsAt buf (pc + 7) (m.row.width 0) = a ∧
        bitsAt buf (pc + 7 + m.row.width 0) (m.row.width 1) = b ∧
        bitsAt buf (pc + m.row.total - m.row.resv) m.row.resv = 0 := by
  have hword : formatWord m a b = m.row.code.toNat + 2 ^ 7 * (a + 2 ^ m.row.width 0 * (b + 2 ^ m.row.width 1 * 0)) := by
    rw [formatWord, Nat.mul_zero, Nat.add_zero]
  rw [bitsAt_row_total, hword, add_two_pow_mul_inj (bitsAt_lt _ _ _) m.row.code.isLt,
    add_two_pow_mul_inj (bitsAt_lt _ _ _) ha, add_two_pow_mul_inj (bitsAt_lt _ _ _) hb]

/-- What `decode` answers is the instruction `decode_one` reads from reset latches, and the bytes after its cursor. -/
theorem decode_eq_ok {bytes rest : List Byte} {i : Instr} (h : decode bytes = .ok (i, rest)) :
    (decodeOne bytes 0 Latches.empty).result = .ok i ∧ bytes.drop ((decodeOne bytes 0 Latches.empty).pc / 8) = rest := by
  unfold decode at h
  obtain ⟨⟨l, pc, r⟩, hd⟩ : ∃ d, decodeOne bytes 0 Latches.empty = d := ⟨_, rfl⟩
  rw [hd] at h ⊢
  cases r with
  | ok j => cases h; exact ⟨rfl, rfl⟩
  | error c => cases h

/-- Where a buffer starts with the word of an instruction, it starts with the instruction's encoding. -/
theorem encode_eq_take {bytes : List Byte} {m : Mnemonic} {a b : Nat} (ha : a < 2 ^ m.row.width 0)
    (hb : b < 2 ^ m.row.width 1) (hlen : m.row.total ≤ lenBits bytes)
    (hword : bitsAt bytes 0 m.row.total = formatWord m a b) :
    encode (Instr.ofFields m a b) = bytes.take (m.row.total / 8) := by
  have hmod := m.row_total_mod
  have hle : m.row.total / 8 ≤ bytes.length := by
    unfold lenBits at hlen
    omega
  have htake : (bytes.take (m.row.total / 8)).length = m.row.total / 8 := List.length_take_of_le hle
  have hbits : lenBits (bytes.take (m.row.total / 8)) = m.row.total := by
    rw [lenBits, htake]
    omega
  refine eq_of_natOfBytes_eq ?_ ?_
  · rw [length_encode, Instr.byteLength, Instr.ofFields_row, htake]
  · have hread := bitsAt_middle [] (bytes.take (m.row.total / 8)) (bytes.drop (m.row.total / 8))
    rw [List.nil_append, List.take_append_drop, hbits] at hread
    rw [natOfBytes_encode ha hb, ← hword, ← hread]
    rfl

/-- Settles O10: the decoded fields are the parts of the word at the start, and `decode` leaves what stands after it. -/
theorem encodingADecodedInstructionReturnsItsBytes : Obligations.EncodingADecodedInstructionReturnsItsBytes := by
  intro bytes rest i h
  obtain ⟨hres, rfl⟩ := decode_eq_ok h
  obtain ⟨m, hlen, hcode, htail, rfl, hpc, -⟩ := decodeOne_eq_ok hres
  have ha := bitsAt_lt bytes (0 + 7) (m.row.width 0)
  have hb := bitsAt_lt bytes (0 + 7 + m.row.width 0) (m.row.width 1)
  have hword := (bitsAt_eq_formatWord_iff bytes 0 ha hb).mpr ⟨hcode, rfl, rfl, htail⟩
  rw [Nat.zero_add] at hlen hpc
  refine ⟨(Instr.ofFields_wellFormed _ _ _).mpr ⟨ha, hb⟩, ?_⟩
  rw [encode_eq_take ha hb hlen hword, hpc, List.take_append_drop]

/-- Where an encoding stands at the cursor, `decode_one` reads the instruction, whatever stands before and after it and
whatever the latches held (R59, R114, R123). -/
theorem decodeOne_encode {m : Mnemonic} {a b : Nat} (ha : a < 2 ^ m.row.width 0) (hb : b < 2 ^ m.row.width 1)
    (before after : List Byte) (l : Latches) :
    decodeOne (before ++ encode (Instr.ofFields m a b) ++ after) (lenBits before) l =
      { latches := { op := some m.row.code, row := some m, f0 := some (BitVec.ofNat 32 a), f1 := some (BitVec.ofNat 32 b)
                     rsv := some 0, ibase := some (lenBits before) }
        pc := lenBits before + m.row.total, result := .ok (Instr.ofFields m a b) } := by
  have hbits := lenBits_encode (Instr.ofFields m a b)
  rw [Instr.ofFields_row] at hbits
  have hword := bitsAt_middle before (encode (Instr.ofFields m a b)) after
  rw [hbits, natOfBytes_encode ha hb, bitsAt_eq_formatWord_iff _ _ ha hb] at hword
  obtain ⟨hcode, h0, h1, htail⟩ := hword
  have hlen : lenBits before + m.row.total ≤ lenBits (before ++ encode (Instr.ofFields m a b) ++ after) := by
    rw [lenBits_append, lenBits_append, hbits]
    exact Nat.le_add_right _ _
  rw [decodeOne_of_whole _ _ l m (by rw [hcode, BitVec.ofNat_toNat, BitVec.setWidth_eq]) hlen, htail, if_pos rfl,
    fullLatches, h0, h1, htail]
  rfl

theorem decode_encode {i : Instr} (h : i.WellFormed) (rest : List Byte) : decode (encode i ++ rest) = .ok (i, rest) := by
  have hlen := length_encode i
  obtain ⟨m, a, b, rfl, ha, hb⟩ := Instr.exists_ofFields_of_wellFormed h
  rw [Instr.byteLength, Instr.ofFields_row] at hlen
  have hone := decodeOne_encode ha hb [] rest Latches.empty
  rw [List.nil_append, show lenBits [] = 0 from rfl] at hone
  rw [decode, hone]
  simp only [Nat.zero_add, ← hlen, List.drop_left]

theorem decodeProgram_succ {bytes rest : List Byte} {i : Instr} {is : List Instr} {fuel : Nat}
    (hone : decode bytes = .ok (i, rest)) (hrest : decodeProgram fuel rest = .ok is) :
    decodeProgram (fuel + 1) bytes = .ok (i :: is) := by
  cases bytes with
  | nil => cases hone
  | cons b bs => rw [decodeProgram.eq_def]; simp only [hone, hrest]

theorem encodeProgram_cons (i : Instr) (is : List Instr) : encodeProgram (i :: is) = encode i ++ encodeProgram is := rfl

/-- Settles O12: the first instruction decodes with the rest of the program left over. -/
theorem programBytesDecodeToTheProgram : Obligations.ProgramBytesDecodeToTheProgram := by
  intro is
  induction is with
  | nil => exact fun _ => ⟨rfl, rfl⟩
  | cons i is ih =>
    intro hwf
    obtain ⟨hi, his⟩ := List.forall_mem_cons.mp hwf
    obtain ⟨hdec, hlen⟩ := ih his
    rw [encodeProgram_cons]
    refine ⟨decodeProgram_succ (decode_encode hi _) hdec, ?_⟩
    rw [List.length_append, length_encode, hlen, List.map_cons, List.sum_cons]

end Sys2Proof

namespace Sys2Proof.Machine

/-- A turn of the run loop executes the instruction that decoding at a cursor before the end of the buffer gave. -/
theorem runTurn_of_decodeOne_ok {s : State} {l : Latches} {pc : Nat} {i : Instr} (hpc : s.vm.pc < lenBits s.vm.ibuf)
    (hdec : decodeOne s.vm.ibuf s.vm.pc s.vm.latches = ⟨l, pc, .ok i⟩) : runTurn s = exec i (s.setFetch pc l) := by
  rw [runTurn, if_pos hpc, hdec]

/-- Settles O42: the bytes before and after the encoding do not matter to `decode_one`. -/
theorem stepRunsTheEncodedInstruction : Obligations.StepRunsTheEncodedInstruction := by
  intro s i before after hrun hwf hbuf hpc
  have hbits := lenBits_encode i
  obtain ⟨m, a, b, rfl, ha, hb⟩ := Instr.exists_ofFields_of_wellFormed hwf
  rw [Instr.ofFields_row] at hbits
  have hin : s.vm.pc < lenBits s.vm.ibuf := by
    have hpos := m.row_total_ge
    rw [hbuf, hpc, lenBits_append, lenBits_append, hbits, lenBits]
    omega
  have hdec := decodeOne_encode ha hb before after s.vm.latches
  rw [← hbuf, lenBits, ← hpc] at hdec
  refine ⟨a, b, Instr.ofFields_operands m a b, ?_⟩
  rw [step_of_run hrun, runTurn_of_decodeOne_ok hin hdec, Instr.ofFields_row, Instr.ofFields_mnemonic]
  rfl

end Sys2Proof.Machine

/-! ## Lines and tokens (30_encoding.md R64, R65, 41_encoder.md R101) -/

namespace Sys2Proof.Machine

theorem isBlank_iff (c : Char) : isBlank c = true ↔ c ∈ [' ', '\t', '\r', '\x0b', '\x0c'] := by
  simp [isBlank, or_assoc]

theorem splitLines_ne_nil (text : List Char) : splitLines text ≠ [] := by
  cases text with
  | nil => exact List.cons_ne_nil _ _
  | cons c cs =>
    rw [splitLines]
    split_ifs
    · exact List.cons_ne_nil _ _
    · split <;> exact List.cons_ne_nil _ _

/-- A character other than a line feed goes to the front of the first line. -/
theorem splitLines_cons {c : Char} (hc : c ≠ '\n') (cs : List Char) :
    ∃ l ls, splitLines cs = l :: ls ∧ splitLines (c :: cs) = (c :: l) :: ls := by
  cases h : splitLines cs with
  | nil => exact absurd h (splitLines_ne_nil cs)
  | cons l ls => exact ⟨l, ls, rfl, by simp only [splitLines, if_neg hc, h]⟩

theorem splitLines_newline (cs : List Char) : splitLines ('\n' :: cs) = [] :: splitLines cs := if_pos rfl

/-- The lines of a text joined by line feeds are the text. -/
theorem intercalate_splitLines (text : List Char) : List.intercalate ['\n'] (splitLines text) = text := by
  induction text with
  | nil => rfl
  | cons c cs ih =>
    by_cases hc : c = '\n'
    · subst hc
      obtain ⟨l, ls, h⟩ := List.exists_cons_of_ne_nil (splitLines_ne_nil cs)
      rw [h] at ih
      rw [splitLines_newline, h, List.intercalate_cons_cons, ih]
      rfl
    · obtain ⟨l, ls, h, h'⟩ := splitLines_cons hc cs
      rw [h] at ih
      rw [h', ← ih]
      cases ls with
      | nil => simp only [List.intercalate_singleton]
      | cons l' ls => simp only [List.intercalate_cons_cons, List.cons_append]

theorem newline_not_mem_of_mem_splitLines (text : List Char) : ∀ l ∈ splitLines text, '\n' ∉ l := by
  induction text with
  | nil => simp [splitLines]
  | cons c cs ih =>
    by_cases hc : c = '\n'
    · subst hc
      rw [splitLines_newline]
      exact List.forall_mem_cons.mpr ⟨List.not_mem_nil, ih⟩
    · obtain ⟨l, ls, h, h'⟩ := splitLines_cons hc cs
      rw [h] at ih
      rw [h']
      obtain ⟨hl, hls⟩ := List.forall_mem_cons.mp ih
      exact List.forall_mem_cons.mpr ⟨fun hm => (List.mem_cons.mp hm).elim (fun e => hc e.symm) hl, hls⟩

/-- A text without a line feed is one line. -/
theorem splitLines_of_no_newline {text : List Char} (h : '\n' ∉ text) : splitLines text = [text] := by
  induction text with
  | nil => rfl
  | cons c cs ih =>
    rw [List.mem_cons, not_or] at h
    obtain ⟨l, ls, hcs, hc⟩ := splitLines_cons (Ne.symm h.1) cs
    rw [ih h.2, List.cons.injEq] at hcs
    rw [hc, ← hcs.1, ← hcs.2]

/-- Characters that are not blank are taken into the token being read. -/
theorem tokensFrom_run {run : List Char} (h : ∀ c ∈ run, isBlank c = false) (cur rest : List Char) :
    tokensFrom cur (run ++ rest) = tokensFrom (cur ++ run) rest := by
  induction run generalizing cur with
  | nil => rw [List.append_nil, List.nil_append]
  | cons c cs ih =>
    obtain ⟨hc, hcs⟩ := List.forall_mem_cons.mp h
    rw [List.cons_append, tokensFrom, hc, if_neg Bool.false_ne_true, ih hcs, List.append_assoc, List.singleton_append]

/-- Blanks before a token are skipped. -/
theorem tokens_gap {gap : List Char} (h : ∀ c ∈ gap, isBlank c = true) (rest : List Char) :
    tokens (gap ++ rest) = tokens rest := by
  induction gap with
  | nil => rfl
  | cons c cs ih =>
    obtain ⟨hc, hcs⟩ := List.forall_mem_cons.mp h
    rw [← ih hcs, List.cons_append, tokens, tokensFrom, if_pos hc]
    rfl

theorem tokens_run {run : List Char} (hne : run ≠ []) (h : ∀ c ∈ run, isBlank c = false) : tokens run = [run] := by
  have hrun := tokensFrom_run h [] []
  rw [List.append_nil, List.nil_append] at hrun
  rw [tokens, hrun, tokensFrom, if_neg (by simpa using hne)]

/-- A blank ends the token being read. -/
theorem tokens_run_blank {run : List Char} (hne : run ≠ []) (h : ∀ c ∈ run, isBlank c = false) {b : Char}
    (hb : isBlank b = true) (rest : List Char) : tokens (run ++ b :: rest) = run :: tokens rest := by
  rw [tokens, tokensFrom_run h, List.nil_append, tokensFrom, if_pos hb, if_neg (by simpa using hne)]
  rfl

/-! ## Skipped lines (30_encoding.md R64, 41_encoder.md R101, R113) -/

/-- A line is blank, or its first token begins with `#`. -/
def Skipped (line : List Char) : Prop := tokens line = [] ∨ ∃ t ts, tokens line = ('#' :: t) :: ts

theorem assembleLine_of_skipped {line : List Char} (h : Skipped line) (e : Encoder) : assembleLine line e = .ok e := by
  rcases h with h | ⟨t, ts, h⟩
  · rw [assembleLine, h]
  · rw [assembleLine, h]
    exact if_pos rfl

theorem assembleLine_of_instruction {line t : List Char} {ts : List (List Char)} (h : tokens line = t :: ts)
    (ht : t.head? ≠ some '#') (e : Encoder) : assembleLine line e = assembleInstruction t ts e := by
  rw [assembleLine, h]
  exact if_neg ht

theorem assembleLines_of_skipped {lines : List (List Char)} (h : ∀ l ∈ lines, Skipped l) (n : Nat) (e : Encoder) :
    assembleLines lines n e = { e with estate := .final } := by
  induction lines generalizing n with
  | nil => rfl
  | cons line lines ih =>
    obtain ⟨hl, hls⟩ := List.forall_mem_cons.mp h
    simp only [assembleLines, assembleLine_of_skipped hl, ih hls]

/-- Settles O21: the equations of `splitLines`, of `tokens` and of `assembleLine`, and a pass that changes nothing. -/
theorem skippedLinesAssembleToNothing : Obligations.SkippedLinesAssembleToNothing := by
  unfold Obligations.SkippedLinesAssembleToNothing
  intro blank
  have isBlank_of {cs : List Char} (h : ∀ c ∈ cs, blank c) : ∀ c ∈ cs, isBlank c = true :=
    fun c hc => (isBlank_iff c).mpr (h c hc)
  have not_isBlank_of {cs : List Char} (h : ∀ c ∈ cs, ¬blank c) : ∀ c ∈ cs, isBlank c = false :=
    fun c hc => Bool.eq_false_iff.mpr fun hb => h c hc ((isBlank_iff c).mp hb)
  refine ⟨fun text => ⟨splitLines_ne_nil text, intercalate_splitLines text, newline_not_mem_of_mem_splitLines text⟩,
    fun gap hgap => ⟨?_, fun run hne hrun => ⟨?_, fun b rest hb => ?_⟩⟩,
    fun l e => ⟨fun h => assembleLine_of_skipped (.inl h) e, fun t ts h => assembleLine_of_skipped (.inr ⟨t, ts, h⟩) e,
      fun t ts h ht => assembleLine_of_instruction h ht e⟩,
    fun t => rfl, fun text h => ?_⟩
  · have hnil := tokens_gap (isBlank_of hgap) []
    rwa [List.append_nil] at hnil
  · rw [tokens_gap (isBlank_of hgap), tokens_run hne (not_isBlank_of hrun)]
  · rw [List.append_assoc, tokens_gap (isBlank_of hgap),
      tokens_run_blank hne (not_isBlank_of hrun) ((isBlank_iff b).mpr hb)]
  · rw [assemble, assemblePass, assembleLines_of_skipped h]
    rfl

/-! ## Decimal operands (30_encoding.md R67, 41_encoder.md R103) -/

theorem isDigit_iff (c : Char) : isDigit c = true ↔ '0' ≤ c ∧ c ≤ '9' := by
  rw [isDigit, Bool.and_eq_true, decide_eq_true_iff, decide_eq_true_iff, Char.le_def, Char.le_def,
    UInt32.le_iff_toNat_le, UInt32.le_iff_toNat_le]
  exact Iff.rfl

theorem parseOperand_eq_some {t : List Char} (hne : t ≠ []) (h : ∀ c ∈ t, isDigit c = true) :
    parseOperand t = some (digitsValue t) := by
  rw [parseOperand, if_neg (by simpa using hne), if_pos (List.all_eq_true.mpr h)]

theorem parseOperand_eq_none_of_not_digits {t : List Char} (h : ¬∀ c ∈ t, isDigit c = true) : parseOperand t = none := by
  rw [parseOperand, if_neg (mt List.all_eq_true.mp h), ite_self]

theorem digitsValue_append_singleton (cs : List Char) (c : Char) :
    digitsValue (cs ++ [c]) = 10 * digitsValue cs + (c.toNat - 48) := by
  rw [digitsValue, List.foldl_append]
  rfl

theorem toNat_digit {d : Nat} (h : d < 10) : (Char.ofNat (48 + d)).toNat = 48 + d := by
  rw [Char.toNat_ofNat, if_pos (Or.inl (by omega))]

theorem isDigit_digit {d : Nat} (h : d < 10) : isDigit (Char.ofNat (48 + d)) = true := by
  rw [isDigit, toNat_digit h, Bool.and_eq_true, decide_eq_true_iff, decide_eq_true_iff]
  omega

/-- With fuel above `n`, the digits of `n` are digits, at least one, and their value is `n`. -/
theorem decimalFrom_spec {fuel n : Nat} (h : n < fuel) :
    decimalFrom fuel n ≠ [] ∧ (∀ c ∈ decimalFrom fuel n, isDigit c = true) ∧ digitsValue (decimalFrom fuel n) = n := by
  induction fuel generalizing n with
  | zero => exact absurd h (Nat.not_lt_zero n)
  | succ fuel ih =>
    rw [decimalFrom]
    split_ifs with hn
    · refine ⟨List.cons_ne_nil _ _, List.forall_mem_singleton.mpr (isDigit_digit hn), ?_⟩
      have hv := digitsValue_append_singleton [] (Char.ofNat (48 + n))
      rw [toNat_digit hn, List.nil_append] at hv
      rw [hv, show digitsValue [] = 0 from rfl]
      omega
    · have hd : n % 10 < 10 := Nat.mod_lt n (by decide)
      obtain ⟨-, hdigits, hvalue⟩ := ih (show n / 10 < fuel by omega)
      refine ⟨List.append_ne_nil_of_right_ne_nil _ (List.cons_ne_nil _ _),
        List.forall_mem_append.mpr ⟨hdigits, List.forall_mem_singleton.mpr (isDigit_digit hd)⟩, ?_⟩
      rw [digitsValue_append_singleton, hvalue, toNat_digit hd]
      omega

theorem decimal_ne_nil (n : Nat) : decimal n ≠ [] := (decimalFrom_spec (Nat.lt_succ_self n)).1

theorem isDigit_of_mem_decimal (n : Nat) : ∀ c ∈ decimal n, isDigit c = true :=
  (decimalFrom_spec (Nat.lt_succ_self n)).2.1

theorem digitsValue_decimal (n : Nat) : digitsValue (decimal n) = n := (decimalFrom_spec (Nat.lt_succ_self n)).2.2

theorem parseOperand_decimal (n : Nat) : parseOperand (decimal n) = some n := by
  rw [parseOperand_eq_some (decimal_ne_nil n) (isDigit_of_mem_decimal n), digitsValue_decimal]

/-- Settles O24: a token of digits has its value, any other none, and a zero in front adds nothing. -/
theorem operandTokensAreDecimal : Obligations.OperandTokensAreDecimal := by
  refine ⟨fun t => ?_, parseOperand_decimal, fun t hne => ?_⟩
  · simp only [← isDigit_iff]
    constructor
    · rintro ⟨n, hn⟩
      constructor
      · rintro rfl
        cases hn
      · by_contra hd
        rw [parseOperand_eq_none_of_not_digits hd] at hn
        cases hn
    · exact fun ⟨hne, hd⟩ => ⟨_, parseOperand_eq_some hne hd⟩
  · by_cases hd : ∀ c ∈ t, isDigit c = true
    · rw [parseOperand_eq_some hne hd,
        parseOperand_eq_some (List.cons_ne_nil _ _) (List.forall_mem_cons.mpr ⟨by decide, hd⟩)]
      rfl
    · rw [parseOperand_eq_none_of_not_digits hd,
        parseOperand_eq_none_of_not_digits fun h => hd (List.forall_mem_cons.mp h).2]

/-! ## Canonical text (30_encoding.md R69, 41_encoder.md R108 to R110) -/

theorem isDigit_eq_false_of_newline_or_blank {c : Char} (h : c = '\n' ∨ isBlank c = true) : isDigit c = false := by
  rw [isBlank_iff] at h
  simp only [List.mem_cons, List.not_mem_nil, or_false] at h
  rcases h with rfl | rfl | rfl | rfl | rfl | rfl <;> decide

theorem decimal_not_blank (n : Nat) : ∀ c ∈ decimal n, isBlank c = false := fun c hc =>
  Bool.eq_false_iff.mpr fun hb =>
    Bool.false_ne_true ((isDigit_eq_false_of_newline_or_blank (.inr hb)).symm.trans (isDigit_of_mem_decimal n c hc))

theorem newline_not_mem_decimal (n : Nat) : '\n' ∉ decimal n := fun hc =>
  Bool.false_ne_true ((isDigit_eq_false_of_newline_or_blank (.inl rfl)).symm.trans (isDigit_of_mem_decimal n _ hc))

theorem spelling_ne_nil (m : Mnemonic) : spelling m ≠ [] := by cases m <;> decide

theorem spelling_not_blank (m : Mnemonic) : ∀ c ∈ spelling m, isBlank c = false := by
  cases m <;> simp [spelling, isBlank]

theorem newline_not_mem_spelling (m : Mnemonic) : '\n' ∉ spelling m := by cases m <;> decide

theorem spelling_head_ne_hash (m : Mnemonic) : (spelling m).head? ≠ some '#' := by cases m <;> decide

theorem resolve_spelling (m : Mnemonic) : resolve (spelling m) = some m.row := by cases m <;> rfl

theorem canonicalText_ofFields (m : Mnemonic) (a b : Nat) :
    canonicalText (Instr.ofFields m a b) = spelling m ++ ' ' :: (decimal a ++ ' ' :: decimal b) := by
  rw [canonicalText, Instr.ofFields_mnemonic, Instr.ofFields_operands]
  simp

theorem tokens_canonicalText (m : Mnemonic) (a b : Nat) :
    tokens (canonicalText (Instr.ofFields m a b)) = [spelling m, decimal a, decimal b] := by
  rw [canonicalText_ofFields, tokens_run_blank (spelling_ne_nil m) (spelling_not_blank m) rfl,
    tokens_run_blank (decimal_ne_nil a) (decimal_not_blank a) rfl, tokens_run (decimal_ne_nil b) (decimal_not_blank b)]

theorem splitLines_canonicalText (m : Mnemonic) (a b : Nat) :
    splitLines (canonicalText (Instr.ofFields m a b)) = [canonicalText (Instr.ofFields m a b)] := by
  refine splitLines_of_no_newline ?_
  rw [canonicalText_ofFields]
  simp [newline_not_mem_spelling, newline_not_mem_decimal]

theorem encodeRecord_of_fits {m : Mnemonic} {a b : Nat} (ha : a < 2 ^ m.row.width 0) (hb : b < 2 ^ m.row.width 1)
    (e : Encoder) :
    encodeRecord m.row [a, b] e =
      .ok { e with writer := pack e.writer m.row [a, b], log := e.log ++ [logEntry m.row [a, b]] } := by
  have hlen : [a, b].length = m.row.fields.length := m.row_fields_length.symm
  rw [encodeRecord, if_neg (not_not.mpr hlen), if_pos ((operandsFit_two m a b).mpr ⟨ha, hb⟩)]

/-- An instruction line of a row's spelling and two decimal operands is the packing of the record. -/
theorem assembleInstruction_spelling_decimal (m : Mnemonic) (a b : Nat) (e : Encoder) :
    assembleInstruction (spelling m) [decimal a, decimal b] e = encodeRecord m.row [a, b] e := by
  have hops : parseOperands [decimal a, decimal b] = some [a, b] := by simp [parseOperands, parseOperand_decimal]
  simp only [assembleInstruction, resolve_spelling, hops]
  exact if_neg (not_not.mpr m.row_fields_length.symm)

theorem assembleLine_canonicalText {m : Mnemonic} {a b : Nat} (ha : a < 2 ^ m.row.width 0) (hb : b < 2 ^ m.row.width 1)
    (e : Encoder) :
    assembleLine (canonicalText (Instr.ofFields m a b)) e =
      .ok { e with writer := pack e.writer m.row [a, b], log := e.log ++ [logEntry m.row [a, b]] } := by
  rw [assembleLine_of_instruction (tokens_canonicalText m a b) (spelling_head_ne_hash m),
    assembleInstruction_spelling_decimal, encodeRecord_of_fits ha hb]

/-- Settles O22: the canonical text is one line, whose tokens resolve and parse to the instruction it was printed from. -/
theorem canonicalTextAssemblesToItsEncoding : Obligations.CanonicalTextAssemblesToItsEncoding := by
  intro i hwf
  obtain ⟨m, a, b, rfl, ha, hb⟩ := Instr.exists_ofFields_of_wellFormed hwf
  rw [assemble, assemblePass, splitLines_canonicalText]
  simp only [assembleLines, assembleLine_canonicalText ha hb]
  rw [encode, Instr.ofFields_row, Instr.ofFields_operands]
  rfl

end Sys2Proof.Machine

/-! ## Writes and reads of the stream as one number (40_bitstream.md R82 to R88) -/

namespace Sys2Proof

/-- The bits a read takes are the stream read as one number, shifted down to the cursor and masked (R86). -/
theorem bitsAt_eq_shiftRight_mod (buf : List Byte) (pc n : Nat) :
    bitsAt buf pc n = (natOfBytes buf >>> pc) % 2 ^ n := by
  apply Nat.eq_of_testBit_eq
  intro i
  rw [testBit_bitsAt, Nat.testBit_mod_two_pow, Nat.testBit_shiftRight, testBit_natOfBytes]

/-- Settles O5: the two cases of a read, the bits read being a shift and a mask of the whole stream. -/
theorem readIsAShiftAndMask : Obligations.ReadIsAShiftAndMask := by
  intro buf pc n
  rcases readBits_cases buf pc n with ⟨hle, e⟩ | ⟨hlt, e⟩
  · rw [e, if_neg (Nat.not_lt.mpr hle), bitsAt_eq_shiftRight_mod]
  · rw [e, if_pos hlt]

/-- A write changes no bit already written (R82). -/
theorem Writer.streamBit_write_of_lt {w : Writer} (h : Machine.WriterSafe w) (v n : Nat) {k : Nat} (hk : k < w.wbits) :
    streamBit (w.write v n).wbuf k = streamBit w.wbuf k := by
  induction n generalizing w v with
  | zero => rfl
  | succ n ih =>
    have hk' : k < (w.writeBit (v.testBit 0)).wbits := Nat.lt_succ_of_lt hk
    rw [Writer.write, ih (Writer.writerSafe_writeBit h _) _ hk', Writer.streamBit_writeBit w _ h, if_neg hk.ne]

/-- Settles O2: the invariant at reset, and its preservation by one write. -/
theorem writerKeepsItsInvariant : Obligations.WriterKeepsItsInvariant :=
  ⟨Writer.writerSafe_empty, fun _ v n h =>
    ⟨Writer.writerSafe_write h v n, fun _ hk => Writer.streamBit_write_of_lt h v n hk⟩⟩

/-- A byte sequence is re-derived from its length and the number it reads as. -/
theorem bytesOfNat_natOfBytes (buf : List Byte) : bytesOfNat buf.length (natOfBytes buf) = buf := by
  induction buf with
  | nil => rfl
  | cons b bs ih =>
    have hb := b.isLt
    have hlow : BitVec.ofNat 8 (b.toNat + 256 * natOfBytes bs) = b := by
      apply BitVec.eq_of_toNat_eq
      rw [BitVec.toNat_ofNat]
      omega
    have hhigh : (b.toNat + 256 * natOfBytes bs) / 256 = natOfBytes bs := by omega
    rw [List.length_cons, natOfBytes, bytesOfNat, hlow, hhigh, ih]

/-- Settles O3: a write is an addition to the stream, and the invariant gives the number of bytes that addition fills. -/
theorem writeIsAShiftAndMerge : Obligations.WriteIsAShiftAndMerge := by
  intro w v n h
  have hbytes : (w.write v n).wbuf.length = (w.wbits + n + 7) / 8 := by
    rw [(Writer.writerSafe_write h v n).bytes, Writer.write_wbits]
  refine ⟨Writer.write_wbits w v n, Writer.natOfBytes_write h v n, ?_⟩
  rw [← Writer.natOfBytes_write h v n, ← hbytes, bytesOfNat_natOfBytes]

theorem Writer.empty_writeAll_wbits (ws : List (Nat × Nat)) :
    (Writer.empty.writeAll ws).wbits = (ws.map Prod.snd).sum := by
  rw [Writer.writeAll_wbits]
  exact Nat.zero_add _

/-- Settles O4: the writer's invariant after a sequence of writes, read at the sum of the widths. -/
theorem finalizePadsWithZeros : Obligations.FinalizePadsWithZeros := by
  intro ws
  obtain ⟨hbytes, hzero⟩ := Writer.writerSafe_writeAll Writer.writerSafe_empty ws
  rw [Writer.empty_writeAll_wbits] at hbytes hzero
  exact ⟨rfl, hbytes, hzero⟩

/-- A buffer that holds the number of a sequence of fields at a cursor reads back as those fields: the first field is
that number's low digit, and the number of the other fields stands behind it. -/
theorem readAll_of_bitsAt_eq_fieldsNat {buf : List Byte} {pc : Nat} {ws : List (Nat × Nat)}
    (hlen : pc + (ws.map Prod.snd).sum ≤ lenBits buf) (hbits : bitsAt buf pc (ws.map Prod.snd).sum = fieldsNat ws) :
    readAll buf pc (ws.map Prod.snd) = .ok (ws.map (fun p => p.1 % 2 ^ p.2), pc + (ws.map Prod.snd).sum) := by
  induction ws generalizing pc with
  | nil => rfl
  | cons p ws ih =>
    obtain ⟨v, n⟩ := p
    simp only [List.map_cons, List.sum_cons, ← Nat.add_assoc] at hlen hbits ⊢
    rw [bitsAt_add, fieldsNat,
      add_two_pow_mul_inj (bitsAt_lt _ _ _) (Nat.mod_lt _ (Nat.two_pow_pos n))] at hbits
    obtain ⟨hfirst, hrest⟩ := hbits
    have hread : readBits buf pc n = .ok (v % 2 ^ n, pc + n) := by
      rw [readBits_ok (by omega), hfirst]
    simp only [readAll, hread, ih hlen hrest]

/-- The bits written by a sequence of writes, taken as one number, are the fields' number (R83, R88). -/
theorem bitsAt_empty_writeAll (ws : List (Nat × Nat)) :
    bitsAt (Writer.empty.writeAll ws).wbuf 0 (ws.map Prod.snd).sum = fieldsNat ws := by
  have hnat : natOfBytes (Writer.empty.writeAll ws).wbuf = fieldsNat ws := by
    rw [Writer.natOfBytes_writeAll Writer.writerSafe_empty]
    simp [Writer.empty, natOfBytes]
  have hlt := Writer.natOfBytes_lt (Writer.writerSafe_writeAll Writer.writerSafe_empty ws)
  rw [hnat, Writer.empty_writeAll_wbits] at hlt
  rw [bitsAt_eq_shiftRight_mod, Nat.shiftRight_zero, hnat, Nat.mod_eq_of_lt hlt]

theorem sum_widths_le_lenBits (ws : List (Nat × Nat)) :
    (ws.map Prod.snd).sum ≤ lenBits (Writer.empty.writeAll ws).wbuf := by
  have hbytes := (Writer.writerSafe_writeAll Writer.writerSafe_empty ws).bytes
  rw [Writer.empty_writeAll_wbits] at hbytes
  rw [lenBits, hbytes]
  omega

/-- Settles O1: the stream holds the fields' number, and reading the widths in order takes it apart again. -/
theorem writtenFieldsReadBack : Obligations.WrittenFieldsReadBack := by
  intro ws
  have hread : readAll (Writer.empty.writeAll ws).finalize 0 (ws.map Prod.snd) =
      .ok (ws.map (fun p => p.1 % 2 ^ p.2), (ws.map Prod.snd).sum) := by
    rw [Writer.finalize, readAll_of_bitsAt_eq_fieldsNat ((Nat.zero_add _).trans_le (sum_widths_le_lenBits ws))
      (bitsAt_empty_writeAll ws), Nat.zero_add]
  refine ⟨hread, fun hfit => ?_⟩
  have hexact : ws.map (fun p => p.1 % 2 ^ p.2) = ws.map Prod.fst :=
    List.map_congr_left fun p hp => Nat.mod_eq_of_lt (hfit p hp)
  rw [hread, hexact]

end Sys2Proof

/-! ## An encoding decodes to its instruction (41_encoder.md R114) -/

namespace Sys2Proof

/-- Settles O9: the encoding stands at bit 0, with nothing before and nothing after it. -/
theorem decodingAnEncodingReturnsIt : Obligations.DecodingAnEncodingReturnsIt := by
  intro i l hwf
  obtain ⟨m, a, b, rfl, ha, hb⟩ := Instr.exists_ofFields_of_wellFormed hwf
  have hone := decodeOne_encode ha hb [] [] l
  rw [List.nil_append, List.append_nil, show lenBits [] = 0 from rfl] at hone
  rw [hone, Instr.ofFields_row]
  exact ⟨rfl, Nat.zero_add _⟩

/-- With that many instructions allowed, or more, a program's bytes decode to the program (R59). -/
theorem decodeProgram_encodeProgram {is : List Instr} (hwf : ∀ i ∈ is, i.WellFormed) {fuel : Nat}
    (hfuel : is.length ≤ fuel) : decodeProgram fuel (encodeProgram is) = .ok is := by
  induction is generalizing fuel with
  | nil => cases fuel <;> rfl
  | cons i is ih =>
    obtain ⟨hi, his⟩ := List.forall_mem_cons.mp hwf
    obtain ⟨fuel, rfl⟩ := Nat.exists_eq_add_of_le' hfuel
    exact decodeProgram_succ (decode_encode hi _) (ih his (Nat.le_add_left _ _))

theorem Instr.byteLength_pos (i : Instr) : 0 < i.byteLength := by
  have h := i.mnemonic.row_total_ge
  unfold Instr.byteLength Instr.row
  omega

/-- Every instruction has at least one byte, so a program has no more instructions than bytes. -/
theorem length_le_length_encodeProgram (is : List Instr) : is.length ≤ (encodeProgram is).length := by
  induction is with
  | nil => exact Nat.le_refl 0
  | cons i is ih =>
    have hpos := i.byteLength_pos
    rw [encodeProgram_cons, List.length_append, length_encode, List.length_cons]
    omega

/-! ## Packing behind whole bytes (40_bitstream.md R84, 30_encoding.md R59) -/

theorem natOfBytes_append (xs ys : List Byte) :
    natOfBytes (xs ++ ys) = natOfBytes xs + natOfBytes ys * 2 ^ lenBits xs := by
  induction xs with
  | nil => simp [natOfBytes, lenBits]
  | cons x xs ih =>
    have hlen : lenBits (x :: xs) = 8 + lenBits xs := by
      simp only [lenBits, List.length_cons]
      omega
    rw [List.cons_append, natOfBytes, natOfBytes, ih, hlen, Nat.pow_add]
    ring

/-- Behind whole bytes, a sequence of writes appends the bytes it makes in an empty writer. -/
theorem Writer.writeAll_of_whole_bytes {w : Writer} (h : Machine.WriterSafe w) (hwhole : w.wbits % 8 = 0)
    (ws : List (Nat × Nat)) : (w.writeAll ws).wbuf = w.wbuf ++ (Writer.empty.writeAll ws).wbuf := by
  have hbytes := h.bytes
  have hafter := (Writer.writerSafe_writeAll h ws).bytes
  have hfresh := (Writer.writerSafe_writeAll Writer.writerSafe_empty ws).bytes
  rw [Writer.writeAll_wbits] at hafter hfresh
  rw [show Writer.empty.wbits = 0 from rfl] at hfresh
  refine eq_of_natOfBytes_eq ?_ ?_
  · rw [List.length_append, hafter, hfresh, hbytes]
    omega
  · have hbits : lenBits w.wbuf = w.wbits := by
      rw [lenBits, hbytes]
      omega
    rw [natOfBytes_append, hbits, Writer.natOfBytes_writeAll h, Writer.natOfBytes_writeAll Writer.writerSafe_empty]
    simp [Writer.empty, natOfBytes]

theorem pack_of_whole_bytes {w : Writer} (h : Machine.WriterSafe w) (hwhole : w.wbits % 8 = 0) (m : Mnemonic)
    (a b : Nat) : (pack w m.row [a, b]).wbuf = w.wbuf ++ encode (Instr.ofFields m a b) := by
  rw [encode_ofFields, pack_eq_writeAll, pack_eq_writeAll, Writer.writeAll_of_whole_bytes h hwhole]

end Sys2Proof

/-! ## One record and one line (41_encoder.md R102 to R108) -/

namespace Sys2Proof.Machine

/-- Settles O14: a record that fits is packed, and the packer's writes are the four of R108. -/
theorem packerWritesOpcodeFieldsAndTail : Obligations.PackerWritesOpcodeFieldsAndTail := by
  intro m a b e ha hb
  rw [encodeRecord_of_fits ha hb, pack_eq_writeAll, logEntry, Mnemonic.row_name]

/-- Settles O15: the three outcomes of a record exclude each other. -/
theorem packerRejectsBadRecords : Obligations.PackerRejectsBadRecords := by
  intro m ops e
  rcases encodeRecord_cases m ops e with ⟨hlen, arity⟩ | ⟨a, b, rfl, hwide, overflow⟩ | ⟨a, b, rfl, ha, hb, packed⟩
  · rw [arity]
    refine ⟨iff_of_true rfl hlen, iff_of_false (fun h => nomatch h) ?_⟩
    rintro ⟨a, b, rfl, -⟩
    exact hlen rfl
  · rw [overflow]
    exact ⟨iff_of_false (fun h => nomatch h) (fun h => h rfl), iff_of_true rfl ⟨a, b, rfl, hwide⟩⟩
  · rw [packed]
    refine ⟨iff_of_false (fun h => nomatch h) (fun h => h rfl), iff_of_false (fun h => nomatch h) ?_⟩
    rintro ⟨a', b', hops, hwide⟩
    cases hops
    omega

theorem parseOperands_eq_none {ts : List (List Char)} (h : ∃ t ∈ ts, parseOperand t = none) :
    parseOperands ts = none := by
  induction ts with
  | nil => simp at h
  | cons t ts ih =>
    cases hp : parseOperand t with
    | none => simp only [parseOperands, hp]
    | some v =>
      have hts : ∃ u ∈ ts, parseOperand u = none := by simpa [hp] using h
      simp only [parseOperands, hp, ih hts, Option.map_none]

/-- Settles O16: each check is reached when the ones before it have passed. -/
theorem lineChecksComeInOrder : Obligations.LineChecksComeInOrder := by
  intro t ts e
  refine ⟨fun hr => by rw [assembleInstruction, hr], fun r hr => ?_⟩
  obtain ⟨m, rfl, -⟩ := resolve_eq_some hr
  simp only [assembleInstruction, hr, m.row_fields_length]
  refine ⟨fun hlen => if_pos hlen, fun hlen hbad => ?_, ?_⟩
  · rw [if_neg (not_not.mpr hlen), parseOperands_eq_none hbad]
  · rintro u w a b rfl hu hw
    simp [parseOperands, hu, hw]

/-! ## Mnemonics in any letter case (30_encoding.md R65, 41_encoder.md R102) -/

theorem mem_descriptor_iff (r : Row) : r ∈ descriptor ↔ ∃ m : Mnemonic, r = m.row := by
  constructor
  · intro h
    simp only [descriptor, List.mem_cons, List.not_mem_nil, or_false] at h
    rcases h with rfl | rfl | rfl | rfl
    exacts [⟨.load, rfl⟩, ⟨.read, rfl⟩, ⟨.write, rfl⟩, ⟨.popcnt, rfl⟩]
  · rintro ⟨m, rfl⟩
    cases m <;> simp [descriptor]

/-- A token resolves to the row whose spelling is its folded form. -/
theorem resolve_eq_some_row_iff (t : List Char) (m : Mnemonic) :
    resolve t = some m.row ↔ t.map foldUpper = spelling m := by
  constructor
  · intro h
    obtain ⟨m', hrow, ht⟩ := resolve_eq_some h
    have hm : m = m' := by rw [← m.row_name, hrow, m'.row_name]
    rw [ht, hm]
  · intro h
    rw [resolve, h]
    cases m <;> rfl

theorem toNat_foldUpper (c : Char) :
    (foldUpper c).toNat = if 97 ≤ c.toNat ∧ c.toNat ≤ 122 then c.toNat - 32 else c.toNat := by
  rw [foldUpper]
  split_ifs with h
  · rw [Char.toNat_ofNat, if_pos (Or.inl (by omega))]
  · rfl

theorem foldUpper_of_not_lower {c : Char} (h : c.toNat < 97 ∨ 122 < c.toNat) : foldUpper c = c := by
  rw [foldUpper, if_neg (by omega)]

/-- A folded character is no lower-case letter, so folding twice is folding once. -/
theorem foldUpper_foldUpper (c : Char) : foldUpper (foldUpper c) = foldUpper c := by
  refine foldUpper_of_not_lower ?_
  rw [toNat_foldUpper]
  split_ifs <;> omega

/-- What folds to an upper-case letter is that letter in either case. -/
theorem foldUpper_eq_iff {c u : Char} (hu : 65 ≤ u.toNat ∧ u.toNat ≤ 90) :
    foldUpper c = u ↔ c = u ∨ c.toNat = u.toNat + 32 := by
  rw [← Char.toNat_inj, ← Char.toNat_inj, toNat_foldUpper]
  split_ifs <;> omega

theorem map_foldUpper_eq_iff {us : List Char} (hu : ∀ u ∈ us, 65 ≤ u.toNat ∧ u.toNat ≤ 90) (t : List Char) :
    t.map foldUpper = us ↔ List.Forall₂ (fun c u => c = u ∨ c.toNat = u.toNat + 32) t us := by
  induction us generalizing t with
  | nil => simp
  | cons u us ih =>
    obtain ⟨hu, hus⟩ := List.forall_mem_cons.mp hu
    cases t with
    | nil => simp
    | cons c t => rw [List.map_cons, List.cons.injEq, List.forall₂_cons, foldUpper_eq_iff hu, ih hus]

theorem spelling_upper (m : Mnemonic) : ∀ u ∈ spelling m, 65 ≤ u.toNat ∧ u.toNat ≤ 90 := by
  cases m <;> simp [spelling]

/-- Settles O23: folding by code points, and resolution as an equation between the folded token and a spelling. -/
theorem mnemonicsResolveInAnyCase : Obligations.MnemonicsResolveInAnyCase := by
  refine ⟨fun k hk => ?_, fun c hc => foldUpper_of_not_lower hc, ⟨rfl, rfl, rfl, rfl⟩,
    fun t => ⟨fun r => ?_, ?_, fun m => ?_⟩⟩
  · rw [← Char.toNat_inj, toNat_foldUpper, Char.toNat_ofNat, Char.toNat_ofNat, if_pos (Or.inl (by omega)),
      if_pos (Or.inl (by omega)), if_pos (by omega)]
    omega
  · constructor
    · intro h
      obtain ⟨m, rfl, ht⟩ := resolve_eq_some h
      exact ⟨(mem_descriptor_iff _).mpr ⟨m, rfl⟩, by rw [ht, m.row_name]⟩
    · rintro ⟨hr, ht⟩
      obtain ⟨m, rfl⟩ := (mem_descriptor_iff r).mp hr
      rw [resolve_eq_some_row_iff, ht, m.row_name]
  · have hfold : (t.map foldUpper).map foldUpper = t.map foldUpper := by
      rw [List.map_map]
      exact List.map_congr_left fun c _ => foldUpper_foldUpper c
    rw [resolve, hfold, resolve]
  · rw [resolve_eq_some_row_iff, map_foldUpper_eq_iff (spelling_upper m)]

/-! ## The whole pass (41_encoder.md R100, R107, R110 to R114) -/

theorem assembleLines_cons_of_ok {line : List Char} {e e' : Encoder} (h : assembleLine line e = .ok e')
    (lines : List (List Char)) (n : Nat) : assembleLines (line :: lines) n e = assembleLines lines (n + 1) e' := by
  rw [assembleLines, h]

theorem assembleLines_cons_of_error {line : List Char} {e : Encoder} {c : Condition}
    (h : assembleLine line e = .error c) (lines : List (List Char)) (n : Nat) :
    assembleLines (line :: lines) n e = raiseAsm c (n + 1) := by
  rw [assembleLines, h]

/-- After lines that all pass, the pass goes on with the lines left, counted on. -/
theorem assembleLines_append {good : List (List Char)} {e e' : Encoder}
    (h : good.foldlM (fun e l => assembleLine l e) e = .ok e') (rest : List (List Char)) (n : Nat) :
    assembleLines (good ++ rest) n e = assembleLines rest (n + good.length) e' := by
  induction good generalizing n e with
  | nil => cases h; rfl
  | cons line good ih =>
    rw [List.foldlM_cons] at h
    cases hl : assembleLine line e with
    | error c => rw [hl] at h; cases h
    | ok e₁ =>
      rw [hl] at h
      rw [List.cons_append, assembleLines_cons_of_ok hl, ih h, List.length_cons, Nat.add_assoc, Nat.add_comm 1]

/-- Settles O17: the pass reaches the bad line with the encoder the good ones left, and ends there. -/
theorem firstBadLineIsReported : Obligations.FirstBadLineIsReported := by
  intro good rest bad n e e' c hgood hbad
  rw [assembleLines_append hgood, assembleLines_cons_of_error hbad]

/-- An encoder within a pass that has packed and logged exactly the instructions `is`. -/
structure HoldsProgram (e : Encoder) (is : List Instr) : Prop where
  inPass : EncoderInPass e
  wellFormed : ∀ i ∈ is, i.WellFormed
  bytes : e.writer.wbuf = encodeProgram is
  log : e.log = is.map (fun i => logEntry i.row i.operands)

theorem holdsProgram_reset : HoldsProgram Encoder.reset [] :=
  ⟨encoderInPass_reset, (fun _ h => nomatch h), rfl, rfl⟩

/-- Packing and logging a record appends its instruction. -/
theorem holdsProgram_pack {e : Encoder} {is : List Instr} (h : HoldsProgram e is) {m : Mnemonic} {a b : Nat}
    (ha : a < 2 ^ m.row.width 0) (hb : b < 2 ^ m.row.width 1) :
    HoldsProgram { e with writer := pack e.writer m.row [a, b], log := e.log ++ [logEntry m.row [a, b]] }
      (is ++ [Instr.ofFields m a b]) where
  inPass := encoderInPass_pack h.inPass m a b _
  wellFormed :=
    List.forall_mem_append.mpr
      ⟨h.wellFormed, List.forall_mem_singleton.mpr ((Instr.ofFields_wellFormed m a b).mpr ⟨ha, hb⟩)⟩
  bytes := by
    obtain ⟨hsafe, -⟩ := h.inPass
    simp only [pack_of_whole_bytes hsafe.writerSafe hsafe.wholeBytes, h.bytes, encodeProgram, List.map_append,
      List.flatten_append, List.map_singleton, List.flatten_singleton]
  log := by
    simp only [h.log, List.map_append, List.map_singleton, Instr.ofFields_row, Instr.ofFields_operands]

/-- A line leaves an encoder that holds a program, or raises one of the four conditions. -/
theorem assembleLine_of_holdsProgram (line : List Char) {e : Encoder} {is : List Instr} (h : HoldsProgram e is) :
    (∃ e' is', HoldsProgram e' is' ∧ assembleLine line e = .ok e') ∨
      ∃ c, asmCondition c = true ∧ assembleLine line e = .error c := by
  rcases assembleLine_cases line e with skip | ⟨m, a, b, ha, hb, packed⟩ | raised
  · exact .inl ⟨e, is, h, skip⟩
  · exact .inl ⟨_, _, holdsProgram_pack h ha hb, packed⟩
  · exact .inr raised

/-- A pass takes every line and holds a program at its end, or ends at one of the lines with one of the four
conditions. -/
theorem assembleLines_of_holdsProgram (lines : List (List Char)) (n : Nat) {e : Encoder} {is : List Instr}
    (h : HoldsProgram e is) :
    (∃ e' is', HoldsProgram e' is' ∧ assembleLines lines n e = { e' with estate := .final }) ∨
      ∃ c k, asmCondition c = true ∧ n < k ∧ k ≤ n + lines.length ∧ assembleLines lines n e = raiseAsm c k := by
  induction lines generalizing n e is with
  | nil => exact .inl ⟨e, is, h, rfl⟩
  | cons line lines ih =>
    rw [List.length_cons]
    rcases assembleLine_of_holdsProgram line h with ⟨e₁, is₁, h₁, hok⟩ | ⟨c, hc, herr⟩
    · rw [assembleLines_cons_of_ok hok]
      rcases ih (n + 1) h₁ with final | ⟨c, k, hc, hlow, hhigh, failed⟩
      · exact .inl final
      · exact .inr ⟨c, k, hc, by omega, by omega, failed⟩
    · exact .inr ⟨c, n + 1, hc, by omega, by omega, assembleLines_cons_of_error herr lines n⟩

theorem asmResult_final (e : Encoder) :
    asmResult { e with estate := .final } = some (.ok e.writer.finalize e.log) := rfl

theorem asmResult_raiseAsm (c : Condition) (n : Nat) : asmResult (raiseAsm c n) = some (.err c n) := rfl

/-- Settles O18: the two ways a pass can end, read by the host. -/
theorem assemblyIsAllOrNothing : Obligations.AssemblyIsAllOrNothing := by
  intro text
  rw [assemble, assemblePass]
  rcases assembleLines_of_holdsProgram (splitLines text) 0 holdsProgram_reset with
    ⟨e, is, -, final⟩ | ⟨c, k, hc, hlow, hhigh, failed⟩
  · rw [final]
    exact .inl ⟨rfl, asmResult_final e⟩
  · rw [failed]
    exact .inr ⟨rfl, rfl, rfl, c, k, asmResult_raiseAsm c k, hc, hlow, hhigh.trans_eq (Nat.zero_add _)⟩

/-- A text that assembles to bytes and a log ends `FINAL`, and they are those of one program. -/
theorem assemble_eq_ok {text : List Char} {bytes : List Byte} {log : List LogEntry}
    (h : assemble text = some (.ok bytes log)) :
    (assemblePass text).estate = .final ∧
      ∃ is : List Instr, (∀ i ∈ is, i.WellFormed) ∧ bytes = encodeProgram is ∧
        log = is.map (fun i => logEntry i.row i.operands) := by
  rw [assemble] at h
  rw [assemblePass] at h ⊢
  rcases assembleLines_of_holdsProgram (splitLines text) 0 holdsProgram_reset with
    ⟨e, is, hprog, final⟩ | ⟨c, k, -, -, -, failed⟩
  · rw [final, asmResult_final] at h
    cases h
    rw [final]
    exact ⟨rfl, is, hprog.wellFormed, hprog.bytes, hprog.log⟩
  · rw [failed, asmResult_raiseAsm] at h
    cases h

/-- Settles O19: every line keeps the encoder on the bytes and the log of one program, and a program's bytes decode. -/
theorem assembledBytesDecodeToTheLoggedProgram : Obligations.AssembledBytesDecodeToTheLoggedProgram := by
  intro text bytes log h
  obtain ⟨-, is, hwf, rfl, hlog⟩ := assemble_eq_ok h
  exact ⟨is, hwf, rfl, hlog, decodeProgram_encodeProgram hwf (length_le_length_encodeProgram is)⟩

/-- The bytes of a program, counted by the names in its log. -/
theorem sum_byteLength_eq_countP_log {is : List Instr} {log : List LogEntry}
    (hlog : log = is.map (fun i => logEntry i.row i.operands)) :
    (is.map Instr.byteLength).sum =
      5 * log.countP (fun e => e.name == .load) + 6 * log.countP (fun e => e.name == .read) +
        2 * log.countP (fun e => e.name == .write) + 6 * log.countP (fun e => e.name == .popcnt) := by
  subst hlog
  induction is with
  | nil => rfl
  | cons i is ih =>
    simp only [List.map_cons, List.sum_cons, List.countP_cons, ih]
    cases i <;> simp [Instr.byteLength, logEntry, Instr.row, Instr.mnemonic, Mnemonic.row] <;> omega

/-- Settles O20: the bytes are a program's, whose length is the sum of its instructions' lengths. -/
theorem byteCountFollowsTheLog : Obligations.ByteCountFollowsTheLog := by
  intro text bytes log h
  obtain ⟨hfinal, is, hwf, rfl, hlog⟩ := assemble_eq_ok h
  obtain ⟨-, hlen⟩ := programBytesDecodeToTheProgram is hwf
  exact ⟨hfinal, hlen.trans (sum_byteLength_eq_countP_log hlog)⟩

/-- The pass over the records of well-formed instructions appends them to what the encoder holds. -/
theorem encodeRecords_of_holdsProgram {is : List Instr} (hwf : ∀ i ∈ is, i.WellFormed) (n : Nat) {e : Encoder}
    {done : List Instr} (h : HoldsProgram e done) :
    ∃ e', HoldsProgram e' (done ++ is) ∧
      encodeRecords (is.map (fun i => { name := i.mnemonic, ops := i.operands })) n e =
        { e' with estate := .final } := by
  induction is generalizing n e done with
  | nil => exact ⟨e, (List.append_nil done).symm ▸ h, rfl⟩
  | cons i is ih =>
    obtain ⟨hi, his⟩ := List.forall_mem_cons.mp hwf
    obtain ⟨m, a, b, rfl, ha, hb⟩ := Instr.exists_ofFields_of_wellFormed hi
    obtain ⟨e', he', hrest⟩ := ih his (n + 1) (holdsProgram_pack h ha hb)
    rw [List.append_assoc, List.singleton_append] at he'
    refine ⟨e', he', ?_⟩
    simp only [List.map_cons, encodeRecords, Instr.ofFields_mnemonic, Instr.ofFields_operands,
      encodeRecord_of_fits ha hb, hrest]

/-- Settles O25: from reset, the pass holds exactly the instructions of the records. -/
theorem recordsPackIntoTheProgram : Obligations.RecordsPackIntoTheProgram := by
  intro is hwf
  obtain ⟨e, he, hpass⟩ := encodeRecords_of_holdsProgram hwf 0 holdsProgram_reset
  rw [List.nil_append] at he
  rw [recordPass, hpass, asmResult_final, Writer.finalize, he.bytes, he.log]

end Sys2Proof.Machine

/-! ## The outcome of a decode, and what a turn of the run loop makes of it (42_decoder.md R121 to R134) -/

namespace Sys2Proof

/-- The opcode latch loses nothing of the seven bits read. -/
theorem ofNat_bitsAt_eq_iff (buf : List Byte) (pc : Nat) (c : BitVec 7) :
    BitVec.ofNat 7 (bitsAt buf pc 7) = c ↔ bitsAt buf pc 7 = c.toNat := by
  rw [← BitVec.toNat_inj, BitVec.toNat_ofNat, Nat.mod_eq_of_lt (bitsAt_lt buf pc 7)]

/-- Cutting the stream at a cursor to an opcode keeps its seven low bits, which are what the reader gives. -/
theorem ofNat_shiftRight_eq_ofNat_bitsAt (buf : List Byte) (pc : Nat) :
    BitVec.ofNat 7 (natOfBytes buf >>> pc) = BitVec.ofNat 7 (bitsAt buf pc 7) := by
  apply BitVec.eq_of_toNat_eq
  rw [BitVec.toNat_ofNat, BitVec.toNat_ofNat, bitsAt_eq_shiftRight_mod, Nat.mod_mod]

/-- Settles O11: the four ways a decode can go, in the order of its checks. -/
theorem decodeFollowsTheStatedPriority : Obligations.DecodeFollowsTheStatedPriority := by
  intro buf pc l
  simp only [ofNat_shiftRight_eq_ofNat_bitsAt, ← bitsAt_eq_shiftRight_mod]
  by_cases h7 : lenBits buf < pc + 7
  · rw [if_pos h7, decodeOne_of_no_opcode buf pc l h7]
  rw [if_neg h7]
  cases hl : lookupRow (BitVec.ofNat 7 (bitsAt buf pc 7)) with
  | none => rw [decodeOne_of_unassigned buf pc l (Nat.not_lt.mp h7) hl]
  | some r =>
    obtain ⟨m, rfl, hcode⟩ := lookupRow_eq_some hl
    by_cases hcut : lenBits buf < pc + m.row.total
    · obtain ⟨hres, -⟩ := decodeOne_of_truncated buf pc l m (Nat.not_lt.mp h7) hcode hcut
      simp only [hres, if_pos hcut]
    · simp only [decodeOne_of_whole buf pc l m hcode (Nat.not_lt.mp hcut), if_neg hcut, Mnemonic.row_name, ite_not]

/-- An opcode that is none of the four assigned numbers selects no row (R61). -/
theorem lookupRow_bitsAt_eq_none {buf : List Byte} {pc : Nat} (h : bitsAt buf pc 7 ∉ [10, 18, 39, 54]) :
    lookupRow (BitVec.ofNat 7 (bitsAt buf pc 7)) = none := by
  simp only [List.mem_cons, List.not_mem_nil, or_false, not_or] at h
  obtain ⟨hload, hpopcnt, hwrite, hread⟩ := h
  rw [lookupRow_eq_none_iff]
  intro m hcode
  rw [ofNat_bitsAt_eq_iff] at hcode
  cases m
  exacts [hload hcode, hread hcode, hwrite hcode, hpopcnt hcode]

end Sys2Proof

namespace Sys2Proof.Machine

theorem runTurn_of_end {s : State} (h : lenBits s.vm.ibuf ≤ s.vm.pc) : runTurn s = .next (finishRun s) :=
  if_neg (Nat.not_lt.mpr h)

/-- A decode condition is taken at the offset of the instruction it is about, with the cursor and the latches where the
decode left them (R170, R171). -/
theorem step_of_decodeOne_error {s : State} (hrun : s.vm.vstate = .run) (hpc : s.vm.pc < lenBits s.vm.ibuf)
    {c : Condition} (h : (decodeOne s.vm.ibuf s.vm.pc s.vm.latches).result = .error c) :
    step s = .next (raiseRun c (some s.vm.pc) (s.setFetch (decodeOne s.vm.ibuf s.vm.pc s.vm.latches).pc
      (decodeOne s.vm.ibuf s.vm.pc s.vm.latches).latches)) := by
  rw [step_of_run hrun]
  rcases runTurn_cases s with ⟨hend, -⟩ | ⟨-, m, i, -, -, -, hdec, -⟩ | ⟨-, l, p, c', -, -, -, hdec, e⟩
  · exact absurd hpc (Nat.not_lt.mpr hend)
  · rw [hdec] at h; cases h
  · rw [hdec] at h ⊢; cases h; exact e

/-- Settles O41: decoding gives the instruction, and the run loop's turn is its rule. -/
theorem stepRunsTheDecodedInstruction : Obligations.StepRunsTheDecodedInstruction := by
  intro s i l p hrun hpc hdec
  rw [step_of_run hrun, runTurn_of_decodeOne_ok hpc hdec]
  rfl

/-- Settles O44: the seven bits are there and select no row. -/
theorem unassignedOpcodeFaults : Obligations.UnassignedOpcodeFaults := by
  intro s hrun hlen hop
  have hdec := decodeOne_of_unassigned _ _ s.vm.latches hlen (lookupRow_bitsAt_eq_none hop)
  refine ⟨_, step_of_decodeOne_error hrun (by omega) (congrArg Decoded.result hdec), rfl, ?_, rfl, rfl, rfl⟩
  rw [raiseRun_pc, State.setFetch_pc, hdec]

/-- Settles O45: the instruction is whole, so its tail alone decides, and no rule is executed. -/
theorem nonzeroTailFaults : Obligations.NonzeroTailFaults := by
  intro s m hrun hlen hcode htail
  have hdec := decodeOne_of_whole _ _ s.vm.latches m ((ofNat_bitsAt_eq_iff _ _ _).mpr hcode) hlen
  rw [if_neg htail] at hdec
  have hpc : s.vm.pc < lenBits s.vm.ibuf := by have := m.row_total_ge; omega
  exact ⟨_, step_of_decodeOne_error hrun hpc (congrArg Decoded.result hdec), rfl, rfl, rfl, rfl⟩

/-- Settles O46: the two places where the stream can end. -/
theorem truncatedInstructionFaults : Obligations.TruncatedInstructionFaults := by
  intro s hrun hpc hcut
  have hres : (decodeOne s.vm.ibuf s.vm.pc s.vm.latches).result = .error .malformedInstruction := by
    rcases hcut with hop | ⟨m, h7, hcode, hlen⟩
    · rw [decodeOne_of_no_opcode _ _ _ hop]
    · exact (decodeOne_of_truncated _ _ _ m h7 ((ofNat_bitsAt_eq_iff _ _ _).mpr hcode) hlen).1
  exact ⟨_, step_of_decodeOne_error hrun hpc hres, rfl, rfl, rfl, rfl⟩

/-- An instruction's rule leaves `VSTATE` and `DSTATE` alone, or enters `FAULT` (R126). -/
theorem exec_status {i : Instr} {s t : State} (h : exec i s = .next t) :
    (t.vm.vstate = s.vm.vstate ∧ t.vm.dstate = s.vm.dstate) ∨ (t.vm.vstate = .fault ∧ t.vm.dstate = .fault) := by
  rcases exec_cases i s with ⟨d, v, -, e, -⟩ | ⟨a, v, -, e, -⟩ | e <;> rw [e] at h <;> cases h
  · exact .inl ⟨rfl, rfl⟩
  · exact .inl ⟨rfl, rfl⟩
  · exact .inr ⟨rfl, rfl⟩

/-- Settles O48: of the three turns of the run loop only the end test enters `DONE`. -/
theorem runEndsExactlyAtTheBufferEnd : Obligations.RunEndsExactlyAtTheBufferEnd := by
  intro s hrun hin
  refine ⟨fun hend => (step_of_run hrun).trans (runTurn_of_end hend.ge), fun t hstep hdone => ?_⟩
  rw [step_of_run hrun] at hstep
  rcases runTurn_cases s with ⟨hend, -⟩ | ⟨-, m, i, -, -, -, -, e⟩ | ⟨-, l, p, c, -, -, -, -, e⟩
  · exact Nat.le_antisymm hin hend
  · rw [e] at hstep
    rcases exec_status hstep with ⟨hv, -⟩ | ⟨hv, -⟩ <;> rw [hdone] at hv
    · exact absurd (hv.trans hrun) (by decide)
    · cases hv
  · rw [e] at hstep
    cases hstep
    cases hdone

end Sys2Proof.Machine

/-! ## One step as a pass through the decode FSM (42_decoder.md R122, R137) -/

namespace Sys2Proof

theorem Mnemonic.row_fields (m : Mnemonic) :
    ∃ f0 f1, m.row.fields = [f0, f1] ∧ f0.width = m.row.width 0 ∧ f1.width = m.row.width 1 := by
  cases m <;> exact ⟨_, _, rfl, rfl, rfl⟩

theorem Mnemonic.row_width_le (m : Mnemonic) (j : Nat) : m.row.width j ≤ 32 := by
  match j with
  | 0 => cases m <;> decide
  | 1 => cases m <;> decide
  | j + 2 => cases m <;> exact Nat.zero_le _

/-- No operand field is wider than the latch that receives it (R19, R50). -/
theorem toNat_ofNat_bitsAt_width (buf : List Byte) (pc : Nat) (m : Mnemonic) (j : Nat) :
    (BitVec.ofNat 32 (bitsAt buf pc (m.row.width j))).toNat = bitsAt buf pc (m.row.width j) := by
  rw [BitVec.toNat_ofNat, Nat.mod_eq_of_lt]
  exact (bitsAt_lt _ _ _).trans_le (Nat.pow_le_pow_right (by decide) (m.row_width_le j))

/-- What is left of a decode once the opcode at `pc` has selected a row: its fields, read over the latches `l` from the
cursor `p` on, and its tail. -/
def decodeRest (buf : List Byte) (m : Mnemonic) (p : Nat) (l : Latches) : Decoded :=
  match decodeFields buf m.row.fields 0 p l with
  | (l', p', .ok vs) => decodeTail buf m.row vs p' l'
  | (l', p', .error c) => { latches := l', pc := p', result := .error c }

theorem decodeOne_of_assigned {buf : List Byte} {pc : Nat} (l : Latches) {m : Mnemonic} (h : pc + 7 ≤ lenBits buf)
    (hl : lookupRow (BitVec.ofNat 7 (bitsAt buf pc 7)) = some m.row) :
    decodeOne buf pc l = decodeRest buf m (pc + 7)
      { l with ibase := some pc, op := some (BitVec.ofNat 7 (bitsAt buf pc 7)), row := some m } := by
  rw [decodeOne, readBits_ok h]
  simp only [hl, Mnemonic.row_name]
  rfl

theorem decodeRest_of_first_cut {buf : List Byte} {m : Mnemonic} {p : Nat} (l : Latches)
    (h : lenBits buf < p + m.row.width 0) : decodeRest buf m p l = ⟨l, p, .error .malformedInstruction⟩ := by
  obtain ⟨f0, f1, hf, h0, h1⟩ := m.row_fields
  rw [← h0] at h
  rw [decodeRest, hf, decodeFields, readBits_error h]

theorem decodeRest_of_second_cut {buf : List Byte} {m : Mnemonic} {p : Nat} (l : Latches)
    (h : p + m.row.width 0 ≤ lenBits buf) (h' : lenBits buf < p + m.row.width 0 + m.row.width 1) :
    decodeRest buf m p l =
      ⟨l.setField 0 (bitsAt buf p (m.row.width 0)), p + m.row.width 0, .error .malformedInstruction⟩ := by
  obtain ⟨f0, f1, hf, h0, h1⟩ := m.row_fields
  rw [← h0] at h h' ⊢
  rw [← h1] at h'
  rw [decodeRest, hf, decodeFields, readBits_ok h]
  simp only [decodeFields, readBits_error h']

theorem decodeRest_of_fields {buf : List Byte} {m : Mnemonic} {p : Nat} (l : Latches)
    (h : p + m.row.width 0 + m.row.width 1 ≤ lenBits buf) :
    decodeRest buf m p l =
      decodeTail buf m.row
        [bitsAt buf p (m.row.width 0), bitsAt buf (p + m.row.width 0) (m.row.width 1)] (p + m.row.width 0 + m.row.width 1)
        ((l.setField 0 (bitsAt buf p (m.row.width 0))).setField 1 (bitsAt buf (p + m.row.width 0) (m.row.width 1))) := by
  obtain ⟨f0, f1, hf, h0, h1⟩ := m.row_fields
  rw [← h0, ← h1] at h ⊢
  rw [decodeRest, hf, decodeFields, readBits_ok (Nat.le_of_add_right_le h)]
  simp only [decodeFields, readBits_ok h]

theorem decodeTail_of_cut {buf : List Byte} {row : Row} {p : Nat} (vs : List Nat) (l : Latches)
    (h : lenBits buf < p + row.resv) : decodeTail buf row vs p l = ⟨l, p, .error .malformedInstruction⟩ := by
  rw [decodeTail, readBits_error h]

theorem decodeTail_of_nonzero {buf : List Byte} {row : Row} {p : Nat} (vs : List Nat) (l : Latches)
    (h : p + row.resv ≤ lenBits buf) (h0 : bitsAt buf p row.resv ≠ 0) :
    decodeTail buf row vs p l =
      ⟨{ l with rsv := some (BitVec.ofNat 6 (bitsAt buf p row.resv)) }, p + row.resv, .error .malformedInstruction⟩ := by
  simp only [decodeTail, readBits_ok h, if_neg h0]

theorem decodeTail_of_zero {buf : List Byte} {m : Mnemonic} {p : Nat} (a b : Nat) (l : Latches)
    (h : p + m.row.resv ≤ lenBits buf) (h0 : bitsAt buf p m.row.resv = 0) :
    decodeTail buf m.row [a, b] p l =
      ⟨{ l with rsv := some (BitVec.ofNat 6 (bitsAt buf p m.row.resv)) }, p + m.row.resv, .ok (Instr.ofFields m a b)⟩ := by
  simp only [decodeTail, readBits_ok h, if_pos h0, Mnemonic.row_name, List.getD_cons_zero, List.getD_cons_succ]

end Sys2Proof

namespace Sys2Proof.Machine

/-! ### Sequences of transitions -/

/-- The FSM stands between instructions or at the end of the run. -/
def BetweenInstructions (t : State) : Prop := t.vm.dstate = .fetch ∨ t.vm.dstate = .done ∨ t.vm.dstate = .fault

/-- A state inside the pass that began at `s`: no register, memory word or status has changed yet. -/
def InsidePass (s u : State) : Prop :=
  u.vm.x = s.vm.x ∧ u.vm.mem = s.vm.mem ∧ u.vm.vstate = .run ∧
    u.vm.dstate ≠ .fetch ∧ u.vm.dstate ≠ .done ∧ u.vm.dstate ≠ .fault

/-- The pass that began at `s` goes from `u` to its end `t` in `n` more transitions, the states on the way inside it. -/
inductive PassTo (s : State) : Nat → State → State → Prop where
  | last {u t : State} : fsmStep u = .next t → BetweenInstructions t → PassTo s 1 u t
  | step {n : Nat} {u v t : State} : fsmStep u = .next v → InsidePass s v → PassTo s n v t → PassTo s (n + 1) u t

theorem fsmSteps_succ {u v : State} (h : fsmStep u = .next v) (n : Nat) : fsmSteps (n + 1) u = fsmSteps n v := by
  rw [fsmSteps, h]

theorem PassTo.pos {s u t : State} {n : Nat} (h : PassTo s n u t) : 1 ≤ n := by
  cases h <;> exact Nat.succ_pos _

theorem PassTo.fsmSteps_eq {s u t : State} {n : Nat} (h : PassTo s n u t) : fsmSteps n u = .next t := by
  induction h with
  | last hstep _ => exact fsmSteps_succ hstep 0
  | step hstep _ _ ih => rw [fsmSteps_succ hstep, ih]

theorem PassTo.betweenInstructions {s u t : State} {n : Nat} (h : PassTo s n u t) : BetweenInstructions t := by
  induction h with
  | last _ ht => exact ht
  | step _ _ _ ih => exact ih

theorem PassTo.insidePass {s u t : State} {n : Nat} (h : PassTo s n u t) {k : Nat} (h1 : 1 ≤ k) (hk : k < n) :
    ∃ w, fsmSteps k u = .next w ∧ InsidePass s w := by
  induction h generalizing k with
  | last _ _ => omega
  | @step n u v t hstep hv _ ih =>
    obtain ⟨k, rfl⟩ := Nat.exists_eq_add_of_le' h1
    rw [fsmSteps_succ hstep]
    cases k with
    | zero => exact ⟨v, rfl, hv⟩
    | succ k => exact ih (Nat.succ_pos k) (Nat.lt_of_succ_lt_succ hk)

/-! ### The states inside a pass, and what follows each (R122) -/

/-- The state `s` with the cursor and the latches somewhere in a decode, and the FSM in one of its states. -/
def State.decoding (s : State) (p : Nat) (l : Latches) (d : DState) : State :=
  { s with vm := { s.vm with pc := p, latches := l, dstate := d } }

/-! ### The single transitions -/

section Transitions
variable (s : State) {p : Nat} {l : Latches} {m : Mnemonic}

theorem fsmStep_fetch_of_cut (hfetch : s.vm.dstate = .fetch) (hpc : s.vm.pc < lenBits s.vm.ibuf)
    (h : lenBits s.vm.ibuf < s.vm.pc + 7) :
    fsmStep s = .next (raiseRun .malformedInstruction (some s.vm.pc)
      (s.setFetch s.vm.pc { s.vm.latches with ibase := some s.vm.pc })) := by
  simp only [fsmStep, hfetch, fsmFetch, if_pos hpc, readBits_error h]
  rfl

theorem fsmStep_fetch_of_read (hfetch : s.vm.dstate = .fetch) (h : s.vm.pc + 7 ≤ lenBits s.vm.ibuf) :
    fsmStep s = .next (s.decoding (s.vm.pc + 7)
      { s.vm.latches with ibase := some s.vm.pc, op := some (BitVec.ofNat 7 (bitsAt s.vm.ibuf s.vm.pc 7)) } .resolve) := by
  have hpc : s.vm.pc < lenBits s.vm.ibuf := by omega
  simp only [fsmStep, hfetch, fsmFetch, if_pos hpc, readBits_ok h]
  rfl

theorem fsmStep_fetch_of_end (hfetch : s.vm.dstate = .fetch) (h : lenBits s.vm.ibuf ≤ s.vm.pc) :
    fsmStep s = .next (finishRun s) := by
  simp only [fsmStep, hfetch, fsmFetch, if_neg (Nat.not_lt.mpr h)]

theorem fsmStep_resolve_of_unassigned {op : BitVec 7} (hop : l.op = some op) (h : lookupRow op = none) :
    fsmStep (s.decoding p l .resolve) = .next (raiseRun .unknownOpcode l.ibase (s.setFetch p l)) := by
  simp only [fsmStep, State.decoding, fsmResolve, hop, Option.bind_some, h]
  rfl

theorem fsmStep_resolve_of_assigned {op : BitVec 7} (hop : l.op = some op) (h : lookupRow op = some m.row) :
    fsmStep (s.decoding p l .resolve) = .next (s.decoding p { l with row := some m } (.field 0)) := by
  simp only [fsmStep, State.decoding, fsmResolve, hop, Option.bind_some, h, Mnemonic.row_name]

theorem fsmStep_field_of_cut (hm : l.row = some m) {j : Nat} {f : Field} (hf : m.row.fields[j]? = some f)
    (h : lenBits s.vm.ibuf < p + f.width) :
    fsmStep (s.decoding p l (.field j)) = .next (raiseRun .malformedInstruction l.ibase (s.setFetch p l)) := by
  simp only [fsmStep, State.decoding, hm, fsmField, hf, readBits_error h]
  rfl

theorem fsmStep_field_of_read (hm : l.row = some m) {j : Nat} {f : Field} (hf : m.row.fields[j]? = some f)
    (h : p + f.width ≤ lenBits s.vm.ibuf) :
    fsmStep (s.decoding p l (.field j)) =
      .next (s.decoding (p + f.width) (l.setField j (bitsAt s.vm.ibuf p f.width))
        (if j + 1 < 2 then .field (j + 1) else .tail)) := by
  simp only [fsmStep, State.decoding, hm, fsmField, hf, readBits_ok h, m.row_fields_length]

theorem fsmStep_tail_of_cut (hm : l.row = some m) (h : lenBits s.vm.ibuf < p + m.row.resv) :
    fsmStep (s.decoding p l .tail) = .next (raiseRun .malformedInstruction l.ibase (s.setFetch p l)) := by
  simp only [fsmStep, State.decoding, hm, fsmTail, readBits_error h]
  rfl

theorem fsmStep_tail_of_nonzero (hm : l.row = some m) (h : p + m.row.resv ≤ lenBits s.vm.ibuf)
    (h0 : bitsAt s.vm.ibuf p m.row.resv ≠ 0) :
    fsmStep (s.decoding p l .tail) = .next (raiseRun .malformedInstruction l.ibase
      (s.setFetch (p + m.row.resv) { l with rsv := some (BitVec.ofNat 6 (bitsAt s.vm.ibuf p m.row.resv)) })) := by
  simp only [fsmStep, State.decoding, hm, fsmTail, readBits_ok h, if_neg h0]
  rfl

theorem fsmStep_tail_of_zero (hm : l.row = some m) (h : p + m.row.resv ≤ lenBits s.vm.ibuf)
    (h0 : bitsAt s.vm.ibuf p m.row.resv = 0) :
    fsmStep (s.decoding p l .tail) = .next (s.decoding (p + m.row.resv)
      { l with rsv := some (BitVec.ofNat 6 (bitsAt s.vm.ibuf p m.row.resv)) } .exec) := by
  simp only [fsmStep, State.decoding, hm, fsmTail, readBits_ok h, if_pos h0]

theorem fsmStep_exec (hfetch : s.vm.dstate = .fetch) {a b : BitVec 32} (hm : l.row = some m) (ha : l.f0 = some a)
    (hb : l.f1 = some b) :
    fsmStep (s.decoding p l .exec) = exec (Instr.ofFields m a.toNat b.toNat) (s.setFetch p l) := by
  simp only [fsmStep, State.decoding, hm, ha, hb, fsmExec, State.setFetch, ← hfetch]

end Transitions

/-! ### Each state's rest of the pass, from the last state to the first -/

/-- What a turn of the run loop makes of a decode: the instruction's rule, or fault entry (R121, R126). -/
def conclude (s : State) (d : Decoded) : Host.Outcome State Fault Refusal :=
  match d with
  | { latches := l, pc := p, result := .ok i } => exec i (s.setFetch p l)
  | { latches := l, pc := p, result := .error c } => .next (raiseRun c l.ibase (s.setFetch p l))

theorem runTurn_of_inside {s : State} (h : s.vm.pc < lenBits s.vm.ibuf) :
    runTurn s = conclude s (decodeOne s.vm.ibuf s.vm.pc s.vm.latches) := if_pos h

/-- In at most `n` more transitions from `u` the pass that began at `s` ends as the decode `d` says. -/
def PassGives (s : State) (n : Nat) (u : State) (d : Decoded) : Prop :=
  ∃ k t, k ≤ n ∧ conclude s d = .next t ∧ PassTo s k u t

theorem PassGives.fault {s u : State} {p : Nat} {l : Latches} {c : Condition}
    (h : fsmStep u = .next (raiseRun c l.ibase (s.setFetch p l))) (n : Nat) :
    PassGives s (n + 1) u ⟨l, p, .error c⟩ :=
  ⟨1, _, Nat.le_add_left 1 n, rfl, .last h (.inr (.inr rfl))⟩

/-- `D_EXEC`: the rule of the instruction that the latches hold, from `D_FETCH` (R122). -/
theorem passGives_exec {s : State} (hfetch : s.vm.dstate = .fetch) (p : Nat) {l : Latches} {m : Mnemonic} {a b : BitVec 32}
    (hm : l.row = some m) (ha : l.f0 = some a) (hb : l.f1 = some b) :
    PassGives s 1 (s.decoding p l .exec) ⟨l, p, .ok (Instr.ofFields m a.toNat b.toNat)⟩ := by
  obtain ⟨t, ht⟩ := exec_next (Instr.ofFields m a.toNat b.toNat) (s.setFetch p l)
  refine ⟨1, t, le_rfl, ht, .last ((fsmStep_exec s hfetch hm ha hb).trans ht) ?_⟩
  rcases exec_status ht with ⟨-, hd⟩ | ⟨-, hd⟩
  · exact .inl (hd.trans hfetch)
  · exact .inr (.inr hd)

section Pass
variable {s : State} (hrun : s.vm.vstate = .run)
include hrun

theorem PassGives.step {u : State} {p : Nat} {l : Latches} {ds : DState} {n : Nat} {d : Decoded}
    (h : fsmStep u = .next (s.decoding p l ds)) (hds : ds ≠ .fetch ∧ ds ≠ .done ∧ ds ≠ .fault)
    (hrest : PassGives s n (s.decoding p l ds) d) : PassGives s (n + 1) u d := by
  obtain ⟨k, t, hk, hd, ht⟩ := hrest
  exact ⟨k + 1, t, Nat.succ_le_succ hk, hd, .step h ⟨rfl, rfl, hrun, hds⟩ ht⟩

/-- `D_TAIL`, with both operands of the instruction in their latches (R122, R134). -/
theorem passGives_tail (hfetch : s.vm.dstate = .fetch) (p : Nat) {l : Latches} {m : Mnemonic} {a b : BitVec 32}
    (hm : l.row = some m) (ha : l.f0 = some a) (hb : l.f1 = some b) :
    PassGives s 2 (s.decoding p l .tail) (decodeTail s.vm.ibuf m.row [a.toNat, b.toNat] p l) := by
  by_cases hcut : lenBits s.vm.ibuf < p + m.row.resv
  · rw [decodeTail_of_cut _ _ hcut]
    exact .fault (fsmStep_tail_of_cut s hm hcut) 1
  have hlen := Nat.not_lt.mp hcut
  by_cases h0 : bitsAt s.vm.ibuf p m.row.resv = 0
  · rw [decodeTail_of_zero _ _ _ hlen h0]
    exact .step hrun (fsmStep_tail_of_zero s hm hlen h0) (by decide) (passGives_exec hfetch _ hm ha hb)
  · rw [decodeTail_of_nonzero _ _ hlen h0]
    exact .fault (fsmStep_tail_of_nonzero s hm hlen h0) 1

/-- `D_FIELD`, from the first field on (R122). -/
theorem passGives_fields (hfetch : s.vm.dstate = .fetch) (p : Nat) {l : Latches} {m : Mnemonic} (hm : l.row = some m) :
    PassGives s 4 (s.decoding p l (.field 0)) (decodeRest s.vm.ibuf m p l) := by
  obtain ⟨f0, f1, hf, h0, h1⟩ := m.row_fields
  have hf0 : m.row.fields[0]? = some f0 := by rw [hf]; rfl
  have hf1 : m.row.fields[1]? = some f1 := by rw [hf]; rfl
  by_cases hcut0 : lenBits s.vm.ibuf < p + m.row.width 0
  · rw [decodeRest_of_first_cut _ hcut0]
    exact .fault (fsmStep_field_of_cut s hm hf0 (h0 ▸ hcut0)) 3
  have hlen0 := Nat.not_lt.mp hcut0
  have hfirst := fsmStep_field_of_read s hm hf0 (h0 ▸ hlen0)
  rw [h0] at hfirst
  have hm' : (l.setField 0 (bitsAt s.vm.ibuf p (m.row.width 0))).row = some m := hm
  by_cases hcut1 : lenBits s.vm.ibuf < p + m.row.width 0 + m.row.width 1
  · rw [decodeRest_of_second_cut _ hlen0 hcut1]
    exact .step hrun hfirst (by decide) (.fault (fsmStep_field_of_cut s hm' hf1 (h1 ▸ hcut1)) 2)
  have hlen1 := Nat.not_lt.mp hcut1
  have hsecond := fsmStep_field_of_read s hm' hf1 (h1 ▸ hlen1)
  rw [h1] at hsecond
  have htail := passGives_tail hrun hfetch (p + m.row.width 0 + m.row.width 1)
    (l := (l.setField 0 (bitsAt s.vm.ibuf p (m.row.width 0))).setField 1
      (bitsAt s.vm.ibuf (p + m.row.width 0) (m.row.width 1))) hm rfl rfl
  rw [toNat_ofNat_bitsAt_width, toNat_ofNat_bitsAt_width] at htail
  rw [decodeRest_of_fields _ hlen1]
  exact .step hrun hfirst (by decide) (.step hrun hsecond (by decide) htail)

/-- `D_FETCH`, with at least one bit left to decode (R122). -/
theorem passGives_fetch (hfetch : s.vm.dstate = .fetch) (hpc : s.vm.pc < lenBits s.vm.ibuf) :
    PassGives s 6 s (decodeOne s.vm.ibuf s.vm.pc s.vm.latches) := by
  by_cases hcut : lenBits s.vm.ibuf < s.vm.pc + 7
  · rw [decodeOne_of_no_opcode _ _ _ hcut]
    exact .fault (fsmStep_fetch_of_cut s hfetch hpc hcut) 5
  have hlen := Nat.not_lt.mp hcut
  refine .step hrun (fsmStep_fetch_of_read s hfetch hlen) (by decide) ?_
  cases hl : lookupRow (BitVec.ofNat 7 (bitsAt s.vm.ibuf s.vm.pc 7)) with
  | none =>
    rw [decodeOne_of_unassigned _ _ _ hlen hl]
    exact .fault (fsmStep_resolve_of_unassigned s rfl hl) 4
  | some r =>
    obtain ⟨m, rfl, -⟩ := lookupRow_eq_some hl
    rw [decodeOne_of_assigned _ hlen hl]
    exact .step hrun (fsmStep_resolve_of_assigned s rfl hl) (by decide) (passGives_fields hrun hfetch _ rfl)

/-- At the end of the buffer the pass is the end test alone; before it, the transitions of one decode (R127, R137). -/
theorem runTurn_is_a_pass (hfetch : s.vm.dstate = .fetch) :
    ∃ n t, n ≤ 6 ∧ runTurn s = .next t ∧ PassTo s n s t := by
  by_cases hpc : s.vm.pc < lenBits s.vm.ibuf
  · rw [runTurn_of_inside hpc]
    exact passGives_fetch hrun hfetch hpc
  · have hend := Nat.not_lt.mp hpc
    exact ⟨1, _, by decide, runTurn_of_end hend, .last (fsmStep_fetch_of_end s hfetch hend) (.inr (.inl rfl))⟩

end Pass

/-- Settles O57: the turn of the run loop is a pass, and a pass has the properties stated of its transitions. -/
theorem stepIsOnePassThroughTheFsm : Obligations.StepIsOnePassThroughTheFsm := by
  intro s hrun hfetch
  obtain ⟨n, t, hn, hturn, hpass⟩ := runTurn_is_a_pass hrun hfetch
  exact ⟨n, t, hpass.pos, hn, (step_of_run hrun).trans hturn, hpass.fsmSteps_eq, hpass.betweenInstructions,
    fun k h1 hk => hpass.insidePass h1 hk⟩

end Sys2Proof.Machine

/-! ## What a run gives the host (42_decoder.md R120, R125, R128, R131 to R133) -/

namespace Sys2Proof.Machine

/-! ### The snapshot and the registers -/

theorem snapshotFrom_eq_map (m : Memory) (a n : Nat) :
    snapshotFrom m a n = (List.range n).map (fun k => (a + k, (m.read (a + k)).toNat)) := by
  induction n generalizing a with
  | zero => rfl
  | succ n ih =>
    rw [snapshotFrom, ih, List.range_succ_eq_map, List.map_cons, List.map_map]
    simp only [Function.comp_def, Nat.add_zero, Nat.succ_eq_add_one, Nat.add_assoc, Nat.add_comm 1]

theorem runResult_of_done {s : State} {a b : Nat} (hdone : s.vm.vstate = .done) (ha : s.vm.snapStart = some a)
    (hb : s.vm.snapEnd = some b) : runResult s = some (.ok (snapshot s.vm.mem a b) (regsOutput s)) := by
  simp only [runResult, hdone, ha, hb]

theorem vstate_of_runResult_ok {s : State} {snap : List (Nat × Nat)} {regs : Option (List Nat)}
    (h : runResult s = some (.ok snap regs)) : s.vm.vstate = .done := by
  unfold runResult at h
  cases hv : s.vm.vstate <;> simp only [hv] at h
  · cases h
  · cases h
  · rfl
  · split at h <;> cases h

/-- The register list holds at each index what the register reads. -/
theorem getElem?_regs_of_readReg {s : State} {i : Nat} {v : Word} (h : readReg s i = .ok v) :
    (s.vm.x.toList.map (fun v => v.toNat))[i]? = some v.toNat := by
  rcases readReg_cases s i with ⟨hi, e⟩ | ⟨-, e⟩ <;> rw [e] at h <;> cases h
  simp [hi]

/-- Settles O56: what `runResult` reads in each status, and the two values of `EXPOSE_REGS`. -/
theorem onlyACompletedRunGivesTheSnapshot : Obligations.OnlyACompletedRunGivesTheSnapshot := by
  refine ⟨fun s snap regs => vstate_of_runResult_ok, fun s a b hdone ha hb => ?_⟩
  refine ⟨_, _, runResult_of_done hdone ha hb, snapshotFrom_eq_map _ _ _, fun hhidden => ?_, fun hexposed => ?_⟩
  · rw [regsOutput, hhidden, if_neg Bool.false_ne_true]
  · refine ⟨_, if_pos hexposed, ?_, fun i v => getElem?_regs_of_readReg⟩
    rw [List.length_map, Vector.length_toList]

/-! ### The admission -/

theorem step_of_run_call {s : State} {buf : List Byte} {a b : Nat} {rest : List HostCall} (hrun : s.vm.vstate ≠ .run)
    (hcalls : s.calls = .run buf a b :: rest) : step s = admitRun buf a b { s with calls := rest } := by
  rw [step_of_not_run hrun, takeCall, hcalls]

/-- Settles O49: both ways an accepted admission can go start from the loaded decoder/VM. -/
theorem runStartsFromResetAndChecksItsRange : Obligations.RunStartsFromResetAndChecksItsRange := by
  intro s buf a b rest hrun hcalls haccepts
  rw [step_of_run_call hrun hcalls]
  have hregs : ∀ t : State, t.vm.x = State.reset.vm.x → ∀ i, i < 8 → readReg t i = .ok 0 :=
    fun t hx i hi => (readReg_congr hx i).trans (readReg_reset hi)
  rcases admitRun_cases buf a b { s with calls := rest } with ⟨hr, e⟩ | ⟨hr, hlong, -⟩ | ⟨hr, -, e⟩
  · exact ⟨_, e, rfl, rfl, rfl, hregs _ rfl, mem_read_reset, rfl, rfl, rfl, rfl, rfl, fun h => absurd h hr,
      fun _ => ⟨rfl, rfl⟩⟩
  · exact absurd ((haccepts hr).symm.trans hlong) (by decide)
  · exact ⟨_, e, rfl, rfl, rfl, hregs _ rfl, mem_read_reset, rfl, rfl, rfl, rfl, rfl, fun _ => ⟨rfl, rfl, rfl, rfl⟩,
      fun h => absurd hr h⟩

/-! ### The whole run -/

/-- What the host has of a run whose steps ended so. -/
def resultOf (o : Host.Outcome State Fault Refusal) : Option RunResult :=
  match o with
  | .next t => runResult t
  | .fault _ => none
  | .refused _ => none

theorem run_eq (s : State) (buf : List Byte) (a b : Nat) :
    run s buf a b = resultOf (steps (buf.length / 2 + 2) (withRunCall s buf a b)) := rfl

theorem steps_succ_of_next {s t : State} (h : step s = .next t) (n : Nat) : steps (n + 1) s = steps n t := by
  rw [steps, h]

theorem steps_succ_of_fault {s : State} {f : Fault} (h : step s = .fault f) (n : Nat) : steps (n + 1) s = .fault f := by
  rw [steps, h]

theorem step_withRunCall {s : State} (hrun : s.vm.vstate ≠ .run) (buf : List Byte) (a b : Nat) :
    step (withRunCall s buf a b) = admitRun buf a b { s with calls := [] } :=
  step_of_run_call (s := withRunCall s buf a b) hrun rfl

theorem acceptsLength_nil (p : Params) : acceptsLength p [] = true := by
  unfold acceptsLength
  cases p.lmax with
  | none => rfl
  | some n => exact decide_eq_true (Nat.zero_le n)

/-- The state in which the run of `buf` over `[a, b)` begins: the decoder/VM just loaded, nothing decoded yet, and no call
left waiting. -/
def State.admitted (s : State) (buf : List Byte) (a b : Nat) : State :=
  { s with vm := { loadedVM buf a b with vstate := .run, dstate := .fetch }, calls := [] }

theorem step_withRunCall_of_legal {s : State} (hrun : s.vm.vstate ≠ .run) {buf : List Byte} {a b : Nat}
    (hrange : a ≤ b ∧ b ≤ s.params.memWords) (hlen : acceptsLength s.params buf = true) :
    step (withRunCall s buf a b) = .next (s.admitted buf a b) := by
  rw [step_withRunCall hrun]
  rcases admitRun_cases buf a b { s with calls := [] } with ⟨hr, -⟩ | ⟨-, hlong, -⟩ | ⟨-, -, e⟩
  · exact absurd hrange hr
  · exact absurd (hlen.symm.trans hlong) (by decide)
  · exact e

/-- Just after the admission no word is listed and every register is zero (R28, R125). -/
theorem snapshot_regsOutput_admitted (s : State) (buf : List Byte) (a b : Nat) :
    snapshot (s.admitted buf a b).vm.mem a b = (List.range (b - a)).map (fun k => (a + k, 0)) ∧
      regsOutput (s.admitted buf a b) = if s.params.exposeRegs then some (List.replicate 8 0) else none :=
  ⟨snapshotFrom_eq_map _ _ _, rfl⟩

/-- Settles O55: the admission, and the end test at bit 0, with nothing executed between them. -/
theorem emptyBufferGivesTheZeroSnapshot : Obligations.EmptyBufferGivesTheZeroSnapshot := by
  intro s a b hrun hab hbm
  have hadmit := step_withRunCall_of_legal hrun ⟨hab, hbm⟩ (acceptsLength_nil _)
  have hend : step (s.admitted [] a b) = .next (finishRun (s.admitted [] a b)) :=
    (step_of_run rfl).trans (runTurn_of_end le_rfl)
  obtain ⟨hsnap, hregs⟩ := snapshot_regsOutput_admitted s [] a b
  rw [← hsnap, ← hregs, run_eq, steps_succ_of_next hadmit, steps_succ_of_next hend]
  exact runResult_of_done (s := finishRun (s.admitted [] a b)) rfl rfl rfl

/-! ### The encoder and the waiting calls do not reach a run -/

/-- The state with the encoder and the host's calls replaced, and nothing else. -/
def State.withHost (s : State) (enc : Encoder) (calls : List HostCall) : State := { s with enc := enc, calls := calls }

section WithHost
variable (s : State) (enc : Encoder) (calls : List HostCall)

theorem writeReg_withHost (i : Nat) (v : Word) :
    writeReg (s.withHost enc calls) i v = (fun t => t.withHost enc calls) <$> writeReg s i v := by
  rcases writeReg_cases s i v with ⟨h, e⟩ | ⟨h, e⟩ <;> rw [e]
  · exact if_pos h
  · exact if_neg (Nat.not_lt.mpr h)

theorem memWrite_withHost (a : Nat) (v : Word) :
    memWrite (s.withHost enc calls) a v = (fun t => t.withHost enc calls) <$> memWrite s a v := by
  rcases memWrite_cases s a v with ⟨h, e⟩ | ⟨h, e⟩ <;> rw [e]
  · exact if_pos h
  · exact if_neg (Nat.not_lt.mpr h)

theorem settle_withHost (r : Except Condition State) :
    ∃ t, settle s r = .next t ∧
      settle (s.withHost enc calls) ((fun t => t.withHost enc calls) <$> r) = .next (t.withHost enc calls) := by
  cases r with
  | ok t => exact ⟨t, rfl, rfl⟩
  | error c => exact ⟨_, rfl, rfl⟩

/-- An instruction does the same whatever the encoder and the waiting calls are, and leaves both alone. -/
theorem exec_withHost (i : Instr) :
    ∃ t, exec i s = .next t ∧ exec i (s.withHost enc calls) = .next (t.withHost enc calls) := by
  cases i with
  | load d c =>
    simp only [exec, execLoad, writeReg_withHost]
    exact settle_withHost ..
  | read r d =>
    simp only [exec, execRead, writeReg_withHost, ← map_bind]
    exact settle_withHost ..
  | write d r =>
    simp only [exec, execWrite, memWrite_withHost, ← map_bind]
    exact settle_withHost ..
  | popcnt d m =>
    simp only [exec, execPopcnt, memWrite_withHost, ← map_bind]
    exact settle_withHost ..

/-- So does a turn of the run loop. -/
theorem runTurn_withHost :
    ∃ t, runTurn s = .next t ∧ runTurn (s.withHost enc calls) = .next (t.withHost enc calls) := by
  by_cases hpc : s.vm.pc < lenBits s.vm.ibuf
  · rw [runTurn_of_inside hpc, runTurn_of_inside (s := s.withHost enc calls) hpc]
    change ∃ t, conclude s (decodeOne s.vm.ibuf s.vm.pc s.vm.latches) = _ ∧
      conclude (s.withHost enc calls) (decodeOne s.vm.ibuf s.vm.pc s.vm.latches) = _
    rcases decodeOne s.vm.ibuf s.vm.pc s.vm.latches with ⟨l, p, c | i⟩
    · exact ⟨_, rfl, rfl⟩
    · exact exec_withHost (s.setFetch p l) enc calls i
  · have hend := Nat.not_lt.mp hpc
    exact ⟨_, runTurn_of_end hend, runTurn_of_end (s := s.withHost enc calls) hend⟩

end WithHost

theorem withHost_self (s : State) : s.withHost s.enc s.calls = s := rfl

theorem runTurn_calls {s t : State} (h : runTurn s = .next t) : t.calls = s.calls := by
  obtain ⟨t', e, e'⟩ := runTurn_withHost s s.enc s.calls
  rw [withHost_self, h] at e'
  cases e'
  rfl

/-- With no call waiting, any number of steps do the same beside any encoder. -/
theorem steps_withHost {s : State} (hcalls : s.calls = []) (enc : Encoder) (n : Nat) :
    ∃ t, steps n s = .next t ∧ steps n (s.withHost enc []) = .next (t.withHost enc []) := by
  induction n generalizing s with
  | zero => exact ⟨s, rfl, rfl⟩
  | succ n ih =>
    by_cases hrun : s.vm.vstate = .run
    · obtain ⟨t, e, e'⟩ := runTurn_withHost s enc []
      have hrun' : (s.withHost enc []).vm.vstate = .run := hrun
      rw [steps_succ_of_next ((step_of_run hrun).trans e), steps_succ_of_next ((step_of_run hrun').trans e')]
      exact ih ((runTurn_calls e).trans hcalls)
    · have hheld : ∀ u : State, u.vm.vstate ≠ .run → u.calls = [] → step u = .next u := fun u hu hc => by
        rw [step_of_not_run hu, takeCall, hc]
      have hrun' : (s.withHost enc []).vm.vstate ≠ .run := hrun
      rw [steps_succ_of_next (hheld s hrun hcalls), steps_succ_of_next (hheld _ hrun' rfl)]
      exact ih hcalls

theorem resultOf_steps_withHost {s : State} (hcalls : s.calls = []) (enc : Encoder) (n : Nat) :
    resultOf (steps n s) = resultOf (steps n (s.withHost enc [])) := by
  obtain ⟨t, e, e'⟩ := steps_withHost hcalls enc n
  rw [e, e']
  rfl

/-- An admission depends on the parameters alone; what it leaves of two states differs in what the host's side holds. -/
theorem admitRun_of_params_eq {s u : State} (h : s.params = u.params) (buf : List Byte) (a b : Nat) :
    (∃ t, t.calls = s.calls ∧ admitRun buf a b s = .next t ∧
        admitRun buf a b u = .next (t.withHost u.enc u.calls)) ∨
      ∃ f, admitRun buf a b s = .fault f ∧ admitRun buf a b u = .fault f := by
  obtain ⟨p, v, e, c⟩ := s
  obtain ⟨p', v', e', c'⟩ := u
  subst h
  simp only [admitRun]
  split_ifs
  · exact .inl ⟨_, rfl, rfl, rfl⟩
  · exact .inr ⟨_, rfl, rfl⟩
  · exact .inl ⟨_, rfl, rfl, rfl⟩

/-- Settles O54: the admission loads the same decoder/VM from either state, and what is left of the two states, their
encoders, does not reach the run. -/
theorem runResultDependsOnlyOnItsInputs : Obligations.RunResultDependsOnlyOnItsInputs := by
  intro s u buf a b hs hu hparams
  have hadmit := step_withRunCall hs buf a b
  have hadmit' := step_withRunCall hu buf a b
  have hp : State.params { s with calls := [] } = State.params { u with calls := [] } := hparams
  rw [run_eq, run_eq]
  rcases admitRun_of_params_eq hp buf a b with ⟨t, hcalls, e, e'⟩ | ⟨f, e, e'⟩ <;> rw [e] at hadmit <;>
    rw [e'] at hadmit'
  · rw [steps_succ_of_next hadmit, steps_succ_of_next hadmit']
    exact resultOf_steps_withHost hcalls u.enc _
  · rw [steps_succ_of_fault hadmit, steps_succ_of_fault hadmit']

end Sys2Proof.Machine

/-! ## The rules of LOAD, READ and WRITE (43_load_read_write.md R140 to R142, R147) -/

namespace Sys2Proof.Machine

/-! ### What any instruction can change -/

/-- An instruction's rule replaces registers and memory alone, or takes `AddressOutOfBounds` (R126, R147). -/
theorem exec_sets_regs_mem_or_faults (i : Instr) (s : State) :
    (∃ x m, exec i s = .next ((s.setRegs x).setMem m)) ∨
      exec i s = .next (raiseRun .addressOutOfBounds s.vm.latches.ibase s) := by
  rcases exec_cases i s with ⟨d, v, -, e, -⟩ | ⟨a, v, -, e, -⟩ | e
  · exact .inl ⟨s.vm.x.setIfInBounds d v, s.vm.mem, e.trans rfl⟩
  · exact .inl ⟨s.vm.x, s.vm.mem.write a v, e.trans rfl⟩
  · exact .inr e

/-- Settles O39: the two ways a rule can end. -/
theorem instructionsTouchNoControlState : Obligations.InstructionsTouchNoControlState := by
  intro i s
  rcases exec_sets_regs_mem_or_faults i s with ⟨x, m, e⟩ | e
  · exact ⟨_, e, .inl rfl⟩
  · exact ⟨_, e, .inr rfl⟩

/-! ### The last action of a rule -/

theorem memRead_ok {s : State} {a : Nat} (h : a < s.params.memWords) : memRead s a = .ok (s.vm.mem.read a) := if_pos h

theorem memRead_error {s : State} {a : Nat} (h : s.params.memWords ≤ a) :
    memRead s a = .error .addressOutOfBounds := if_neg (Nat.not_lt.mpr h)

theorem memWrite_error {s : State} {a : Nat} (v : Word) (h : s.params.memWords ≤ a) :
    memWrite s a v = .error .addressOutOfBounds := if_neg (Nat.not_lt.mpr h)

/-- A rule that ends in the write of an existing register completes, with that register set and nothing else changed. -/
theorem settle_writeReg {s : State} {d : Nat} (hd : d < Config.regCount) (v : Word) :
    ∃ t, settle s (writeReg s d v) = .next t ∧ readReg t d = .ok v ∧ (∀ j, j ≠ d → readReg t j = readReg s j) ∧
      (∀ a, t.vm.mem.read a = s.vm.mem.read a) ∧ t = { s with vm := { s.vm with x := t.vm.x } } := by
  refine ⟨s.setRegs (s.vm.x.setIfInBounds d v), ?_, ?_, fun j hj => ?_, fun a => rfl, rfl⟩
  · rw [writeReg_ok s d v hd, settle_ok]
  · rw [readReg_setIfInBounds s d d v hd, if_pos rfl]
  · rw [readReg_setIfInBounds s d j v hd, if_neg hj]

/-- A rule that ends in the write of a word inside memory completes, with that word set and nothing else changed. -/
theorem settle_memWrite {s : State} (hwf : s.vm.mem.wf) {a : Nat} (ha : a < s.params.memWords) (v : Word) :
    ∃ t, settle s (memWrite s a v) = .next t ∧ t.vm.mem.read a = v ∧
      (∀ b, b ≠ a → t.vm.mem.read b = s.vm.mem.read b) ∧ (∀ j, readReg t j = readReg s j) ∧
      t = { s with vm := { s.vm with mem := t.vm.mem } } := by
  obtain ⟨t, e, hself, hother, hframe⟩ := (memWriteIsBoundsChecked s a v hwf).2 ha
  have hx : t.vm.x = s.vm.x := by rw [hframe]
  exact ⟨t, by rw [e, settle_ok], hself, hother, readReg_congr hx, hframe⟩

/-! ### LOAD (R140) -/

theorem exec_load (d c : Nat) (s : State) : exec (.load d c) s = settle s (writeReg s d (immediate c)) := rfl

/-- The zero extension loses nothing of a constant that its field can hold. -/
theorem toNat_immediate {c : Nat} (h : c < 2 ^ 24) : (immediate c).toNat = c := by
  rw [immediate, BitVec.toNat_ofNat, Nat.mod_eq_of_lt (by omega)]

/-- Settles O31: the register write of the zero-extended constant. -/
theorem loadWritesTheConstant : Obligations.LoadWritesTheConstant := by
  intro s d c hd hc
  obtain ⟨t, e, hself, hrest⟩ := settle_writeReg (s := s) hd (immediate c)
  exact ⟨t, e, ⟨_, hself, toNat_immediate hc⟩, hrest⟩

/-- Settles O35: the register write is refused. -/
theorem loadFaultsOutsideTheRegisterFile : Obligations.LoadFaultsOutsideTheRegisterFile := by
  intro s d c hd
  rw [exec_load, writeReg_error s d _ hd, settle_error]

/-! ### READ (R141) -/

section Read
variable {s : State} {r a : Nat} (d : Nat)

theorem exec_read_of_no_source (hr : Config.regCount ≤ r) :
    exec (.read r d) s = settle s (.error .addressOutOfBounds) := by
  rw [exec, execRead, registerIndirect, readReg_error s r hr]
  rfl

theorem exec_read_of_address (hr : registerIndirect s r = .ok a) :
    exec (.read r d) s = settle s (memRead s a >>= writeReg s d) := by
  rw [exec, execRead, hr]
  rfl

theorem exec_read_of_inside (hr : registerIndirect s r = .ok a) (ha : a < s.params.memWords) :
    exec (.read r d) s = settle s (writeReg s d (s.vm.mem.read a)) := by
  rw [exec_read_of_address d hr, memRead_ok ha]
  rfl

theorem exec_read_of_outside (hr : registerIndirect s r = .ok a) (ha : s.params.memWords ≤ a) :
    exec (.read r d) s = settle s (.error .addressOutOfBounds) := by
  rw [exec_read_of_address d hr, memRead_error ha]
  rfl

/-- The destination is checked last, and what can stop the rule before that is the same condition. -/
theorem exec_read_of_no_destination (hd : Config.regCount ≤ d) :
    exec (.read r d) s = settle s (.error .addressOutOfBounds) := by
  rcases registerIndirect_cases s r with ⟨_, er⟩ | ⟨hr, -⟩
  · rcases Nat.lt_or_ge _ s.params.memWords with hin | hout
    · rw [exec_read_of_inside d er hin, writeReg_error s d _ hd]
    · exact exec_read_of_outside d er hout
  · exact exec_read_of_no_source d hr

end Read

/-- Settles O32: both checks before the register write pass. -/
theorem readCopiesTheWord : Obligations.ReadCopiesTheWord := by
  intro s r d a hd hr ha
  rw [exec_read_of_inside d hr ha]
  exact settle_writeReg hd _

/-- Settles O36: the three checks of the rule. -/
theorem readFaultsOutOfBounds : Obligations.ReadFaultsOutOfBounds := by
  refine fun s r d => ⟨?_, fun a => exec_read_of_outside d⟩
  rintro (hr | hd)
  · exact exec_read_of_no_source d hr
  · exact exec_read_of_no_destination d hd

/-! ### WRITE (R142) -/

section Write
variable {s : State} {d r a : Nat}

theorem exec_write_of_operands {v : Word} (hd : registerIndirect s d = .ok a) (hr : registerDirect s r = .ok v) :
    exec (.write d r) s = settle s (memWrite s a v) := by
  rw [exec, execWrite, hd, hr]
  rfl

theorem exec_write_of_no_destination (r : Nat) (hd : Config.regCount ≤ d) :
    exec (.write d r) s = settle s (.error .addressOutOfBounds) := by
  rw [exec, execWrite, registerIndirect, readReg_error s d hd]
  rfl

/-- The source is read after the destination, and both reads can only fail with the same condition. -/
theorem exec_write_of_no_source (d : Nat) (hr : Config.regCount ≤ r) :
    exec (.write d r) s = settle s (.error .addressOutOfBounds) := by
  rcases registerIndirect_cases s d with ⟨_, ed⟩ | ⟨hd, -⟩
  · rw [exec, execWrite, ed, registerDirect, readReg_error s r hr]
    rfl
  · exact exec_write_of_no_destination r hd

theorem exec_write_of_outside (r : Nat) (hd : registerIndirect s d = .ok a) (ha : s.params.memWords ≤ a) :
    exec (.write d r) s = settle s (.error .addressOutOfBounds) := by
  rcases readReg_cases s r with ⟨_, er⟩ | ⟨hr, -⟩
  · rw [exec_write_of_operands hd er, memWrite_error _ ha]
  · exact exec_write_of_no_source d hr

end Write

/-- Settles O33: both operands are there and the address is inside memory. -/
theorem writeStoresTheRegister : Obligations.WriteStoresTheRegister := by
  intro s d r a v hwf hd hr ha
  rw [exec_write_of_operands hd hr]
  exact settle_memWrite hwf ha v

/-- Settles O37: the three checks of the rule. -/
theorem writeFaultsOutOfBounds : Obligations.WriteFaultsOutOfBounds := by
  refine fun s d r => ⟨?_, fun a => exec_write_of_outside r⟩
  rintro (hd | hr)
  · exact exec_write_of_no_destination r hd
  · exact exec_write_of_no_source d hr

end Sys2Proof.Machine

/-! ## Every run ends (43_load_read_write.md R146, 70_reset_and_hazards.md R200) -/

namespace Sys2Proof.Machine

/-- A run is in progress over a range the host has given, and no call waits behind it. -/
structure RunInProgress (s : State) : Prop where
  running : s.vm.vstate = .run
  rangeGiven : ∃ a b, s.vm.snapStart = some a ∧ s.vm.snapEnd = some b
  noCalls : s.calls = []

/-- The run has ended, the host can read its result, and no call waits that would replace it. -/
structure ResultStands (s : State) : Prop where
  ended : s.vm.vstate ≠ .run
  result : ∃ r, runResult s = some r
  noCalls : s.calls = []

theorem resultStands_raiseRun {s : State} (hcalls : s.calls = []) (c : Condition) (n : Nat) :
    ResultStands (raiseRun c (some n) s) where
  ended := by rw [raiseRun_vstate]; decide
  result := ⟨.fault c n, rfl⟩
  noCalls := hcalls

theorem RunInProgress.finishRun {s : State} (h : RunInProgress s) : ResultStands (finishRun s) where
  ended := by rw [finishRun_vstate]; decide
  result := by
    obtain ⟨a, b, ha, hb⟩ := h.rangeGiven
    exact ⟨_, runResult_of_done (finishRun_vstate s) ha hb⟩
  noCalls := h.noCalls

/-- A result that stands is held for any number of steps (R173). -/
theorem ResultStands.resultOf_steps {s : State} (h : ResultStands s) (n : Nat) :
    ∃ r, resultOf (steps n s) = some r := by
  induction n with
  | zero => exact h.result
  | succ n ih =>
    have hheld : step s = .next s := by rw [step_of_not_run h.ended, takeCall, h.noCalls]
    rw [steps_succ_of_next hheld]
    exact ih

theorem RunInProgress.setFetch {s : State} (h : RunInProgress s) (p : Nat) (l : Latches) : RunInProgress (s.setFetch p l) :=
  ⟨h.running, h.rangeGiven, h.noCalls⟩

/-- A turn of the run loop gives the host a result, or decodes an instruction of at least two bytes and goes on behind
it, inside the buffer (R146). -/
theorem RunInProgress.step_ends_or_advances {s : State} (h : RunInProgress s) :
    ∃ t, step s = .next t ∧
      (ResultStands t ∨
        RunInProgress t ∧ t.vm.ibuf = s.vm.ibuf ∧ s.vm.pc + 16 ≤ t.vm.pc ∧ t.vm.pc ≤ lenBits s.vm.ibuf) := by
  rw [step_of_run h.running]
  rcases runTurn_cases s with ⟨-, e⟩ | ⟨-, m, i, hlen, -, -, -, e⟩ | ⟨-, l, p, c, -, -, -, -, e⟩
  · exact ⟨_, e, .inl h.finishRun⟩
  · rw [e]
    rcases exec_sets_regs_mem_or_faults i (s.setFetch (s.vm.pc + m.row.total) (fullLatches s.vm.ibuf s.vm.pc m)) with
      ⟨x, mem, e'⟩ | e'
    · exact ⟨_, e', .inr ⟨⟨h.running, h.rangeGiven, h.noCalls⟩, rfl, Nat.add_le_add_left m.row_total_ge _, hlen⟩⟩
    · exact ⟨_, e', .inl (resultStands_raiseRun (h.setFetch _ _).noCalls _ s.vm.pc)⟩
  · exact ⟨_, e, .inl (resultStands_raiseRun (h.setFetch p l).noCalls c _)⟩

/-- One step for each whole two bytes ahead of the cursor, and one more, give the host a result: what is left after the
last instruction that fits is too short for another. -/
theorem RunInProgress.resultOf_steps {s : State} (h : RunInProgress s) {n : Nat}
    (hn : lenBits s.vm.ibuf < s.vm.pc + 16 * (n + 1)) : ∃ r, resultOf (steps (n + 1) s) = some r := by
  induction n generalizing s with
  | zero =>
    obtain ⟨t, e, ht | ⟨-, -, hadv, hin⟩⟩ := h.step_ends_or_advances
    · rw [steps_succ_of_next e]
      exact ht.resultOf_steps 0
    · omega
  | succ n ih =>
    obtain ⟨t, e, ht | ⟨ht, hbuf, hadv, -⟩⟩ := h.step_ends_or_advances <;> rw [steps_succ_of_next e]
    · exact ht.resultOf_steps (n + 1)
    · exact ih ht (by rw [hbuf]; omega)

theorem runInProgress_admitted (s : State) (buf : List Byte) (a b : Nat) : RunInProgress (s.admitted buf a b) :=
  ⟨rfl, ⟨a, b, rfl, rfl⟩, rfl⟩

/-- Settles O53: a run refused for its range has its result at once, and an admitted one has the whole buffer ahead. -/
theorem everyRunEndsWithAResult : Obligations.EveryRunEndsWithAResult := by
  intro s buf a b hrun haccepts
  rw [run_eq]
  by_cases hrange : a ≤ b ∧ b ≤ s.params.memWords
  · rw [steps_succ_of_next (step_withRunCall_of_legal hrun hrange (haccepts hrange))]
    refine (runInProgress_admitted s buf a b).resultOf_steps ?_
    change 8 * buf.length < 0 + 16 * (buf.length / 2 + 1)
    omega
  · have hfault : step (withRunCall s buf a b) = .next (raiseRun .addressOutOfBounds (some 0) _) :=
      (step_withRunCall hrun buf a b).trans (if_neg hrange)
    rw [steps_succ_of_next hfault]
    exact (resultStands_raiseRun rfl _ _).resultOf_steps _

end Sys2Proof.Machine

/-! ## POPCNT and its population counter (44_popcnt_alu.md R150, R151) -/

namespace Sys2Proof.Machine

/-! ### The population count as the size of a set of bit positions

Every law of R151 is read off the set of the positions where a word has a 1. -/

/-- The positions of the 1 bits of a word. -/
def onePositions (v : Word) : Finset Nat := {i ∈ Finset.range 32 | v.getLsbD i = true}

@[simp] theorem mem_onePositions {v : Word} {i : Nat} : i ∈ onePositions v ↔ v.getLsbD i = true := by
  simpa [onePositions] using BitVec.lt_of_getLsbD

/-- A word is counted by adding up its lowest bits one after another. -/
theorem countBits_eq_sum (v : Word) (n : Nat) : countBits v n = ∑ i ∈ Finset.range n, (v.getLsbD i).toNat := by
  induction n with
  | zero => rfl
  | succ n ih => rw [countBits, ih, Finset.sum_range_succ]

theorem popcount_eq_card (v : Word) : popcount v = (onePositions v).card := by
  rw [popcount, countBits_eq_sum, onePositions, Finset.card_filter]
  refine Finset.sum_congr rfl fun i _ => ?_
  cases v.getLsbD i <;> rfl

theorem popcount_le (v : Word) : popcount v ≤ 32 := countBits_le v 32

/-- R151's own formula, with its shifts. -/
theorem popcount_eq_sum_shifts (v : Word) :
    popcount v = ((List.range 32).map (fun i => (v.toNat >>> i) % 2)).sum := by
  have hbit (i : Nat) : (v.getLsbD i).toNat = (v.toNat >>> i) % 2 := by
    rw [BitVec.getLsbD, Nat.toNat_testBit, Nat.shiftRight_eq_div_pow]
  rw [popcount, countBits_eq_sum]
  simp only [hbit]
  rfl

theorem toNat_ofNat_popcount (v : Word) : (BitVec.ofNat 32 (popcount v)).toNat = popcount v := by
  rw [BitVec.toNat_ofNat, Nat.mod_eq_of_lt ((popcount_le v).trans_lt (by decide))]

/-! ### The laws -/

theorem onePositions_or (a b : Word) : onePositions (a ||| b) = onePositions a ∪ onePositions b := by
  ext i; simp

theorem onePositions_and (a b : Word) : onePositions (a &&& b) = onePositions a ∩ onePositions b := by
  ext i; simp

theorem popcount_or_add_popcount_and (a b : Word) :
    popcount (a ||| b) + popcount (a &&& b) = popcount a + popcount b := by
  simp only [popcount_eq_card, onePositions_or, onePositions_and, Finset.card_union_add_card_inter]

theorem popcount_eq_zero_iff (v : Word) : popcount v = 0 ↔ v = 0 := by
  rw [popcount_eq_card, Finset.card_eq_zero]
  constructor
  · intro h
    refine BitVec.eq_of_getLsbD_eq fun i _ => ?_
    have hi : i ∉ onePositions v := by simp [h]
    simpa using hi
  · rintro rfl
    ext i; simp

/-! ### Powers of two, and the count of a count -/

theorem onePositions_two_pow {k : Nat} (hk : k < 32) : onePositions (BitVec.ofNat 32 (2 ^ k)) = {k} := by
  ext i
  simp only [mem_onePositions, BitVec.getLsbD_ofNat, Nat.testBit_two_pow, Bool.and_eq_true, decide_eq_true_eq,
    Finset.mem_singleton]
  omega

theorem popcount_two_pow {k : Nat} (hk : k < 32) : popcount (BitVec.ofNat 32 (2 ^ k)) = 1 := by
  rw [popcount_eq_card, onePositions_two_pow hk, Finset.card_singleton]

theorem onePositions_two_pow_sub_one {k : Nat} (hk : k ≤ 32) :
    onePositions (BitVec.ofNat 32 (2 ^ k - 1)) = Finset.range k := by
  ext i
  simp only [mem_onePositions, BitVec.getLsbD_ofNat, Nat.testBit_two_pow_sub_one, Bool.and_eq_true, decide_eq_true_eq,
    Finset.mem_range]
  omega

theorem popcount_two_pow_sub_one {k : Nat} (hk : k ≤ 32) : popcount (BitVec.ofNat 32 (2 ^ k - 1)) = k := by
  rw [popcount_eq_card, onePositions_two_pow_sub_one hk, Finset.card_range]

/-- A word below `2^k` has its 1 bits below position `k`. -/
theorem popcount_le_of_lt_two_pow {v : Word} {k : Nat} (h : v.toNat < 2 ^ k) : popcount v ≤ k := by
  have hsub : onePositions v ⊆ Finset.range k := fun i hi =>
    Finset.mem_range.mpr ((Nat.pow_lt_pow_iff_right Nat.one_lt_two).mp
      ((Nat.ge_two_pow_of_testBit (mem_onePositions.mp hi)).trans_lt h))
  simpa [popcount_eq_card] using Finset.card_le_card hsub

/-- A count is below `2^5`, or it is `2^5`, which has a single 1 bit (R151). -/
theorem popcount_popcount_le (v : Word) : popcount (BitVec.ofNat 32 (popcount v)) ≤ 5 := by
  rcases (popcount_le v).lt_or_eq with hlt | heq
  · exact popcount_le_of_lt_two_pow ((toNat_ofNat_popcount v).trans_lt hlt)
  · rw [heq]
    exact (popcount_two_pow (k := 5) (by decide)).trans_le (by decide)

/-- Settles O40: the values and the laws, each proved above. -/
theorem popcountCountsTheBits : Obligations.PopcountCountsTheBits :=
  ⟨fun v => ⟨popcount_eq_sum_shifts v, popcount_le v⟩, popcount_or_add_popcount_and, popcount_eq_zero_iff,
    popcount_popcount_le, fun v => ⟨(popcount_le v).trans_lt (by decide), toNat_ofNat_popcount v⟩, by decide,
    fun _ => popcount_two_pow, fun _ => popcount_two_pow_sub_one⟩

/-! ### POPCNT (R150) -/

section Popcnt
variable {s : State} {d m a : Nat}

theorem exec_popcnt_of_operands (hm : m < s.params.memWords) (hd : registerIndirect s d = .ok a) :
    exec (.popcnt d m) s = settle s (memWrite s a (BitVec.ofNat 32 (popcount (s.vm.mem.read m)))) := by
  rw [exec, execPopcnt, absolute, memRead_ok hm, hd]
  rfl

theorem exec_popcnt_of_source_outside (d : Nat) (hm : s.params.memWords ≤ m) :
    exec (.popcnt d m) s = settle s (.error .addressOutOfBounds) := by
  rw [exec, execPopcnt, absolute, memRead_error hm]
  rfl

/-- The register is read after the source word, and both reads can only fail with the same condition. -/
theorem exec_popcnt_of_no_destination (m : Nat) (hd : Config.regCount ≤ d) :
    exec (.popcnt d m) s = settle s (.error .addressOutOfBounds) := by
  rcases Nat.lt_or_ge m s.params.memWords with hin | hout
  · rw [exec, execPopcnt, absolute, memRead_ok hin, registerIndirect, readReg_error s d hd]
    rfl
  · exact exec_popcnt_of_source_outside d hout

theorem exec_popcnt_of_outside (m : Nat) (hd : registerIndirect s d = .ok a) (ha : s.params.memWords ≤ a) :
    exec (.popcnt d m) s = settle s (.error .addressOutOfBounds) := by
  rcases Nat.lt_or_ge m s.params.memWords with hin | hout
  · rw [exec_popcnt_of_operands hin hd, memWrite_error _ ha]
  · exact exec_popcnt_of_source_outside d hout

end Popcnt

/-- Settles O34: the write of the count, which the word holds whole. -/
theorem popcntStoresTheCount : Obligations.PopcntStoresTheCount := by
  intro s d m a hwf hm hd ha
  rw [exec_popcnt_of_operands hm hd]
  obtain ⟨t, e, hself, hrest⟩ := settle_memWrite hwf ha (BitVec.ofNat 32 (popcount (s.vm.mem.read m)))
  exact ⟨t, e, by rw [hself, toNat_ofNat_popcount], hrest⟩

/-- Settles O38: the three checks of the rule. -/
theorem popcntFaultsOutOfBounds : Obligations.PopcntFaultsOutOfBounds := by
  refine fun s d m => ⟨?_, fun a => exec_popcnt_of_outside m⟩
  rintro (hd | hm)
  · exact exec_popcnt_of_no_destination m hd
  · exact exec_popcnt_of_source_outside d hm

end Sys2Proof.Machine

/-! ## Conditions and what stands between passes (60_exceptions.md R170, R171, R173, R174) -/

namespace Sys2Proof.Machine

/-- A turn of the run loop that enters `FAULT` is the entry itself, at the offset where the turn began: only the cursor
and the latches of the decode came before it (R170, R171). -/
theorem runTurn_enters_fault {s t : State} (hrun : s.vm.vstate = .run) (hturn : runTurn s = .next t)
    (hfault : t.vm.vstate = .fault) :
    ∃ c p l, runCondition c = true ∧ t = raiseRun c (some s.vm.pc) (s.setFetch p l) := by
  rcases runTurn_cases s with ⟨-, e⟩ | ⟨-, m, i, -, -, -, -, e⟩ | ⟨-, l, p, c, -, -, hc, -, e⟩ <;> rw [e] at hturn
  · cases hturn
    cases hfault
  · rcases exec_sets_regs_mem_or_faults i (s.setFetch (s.vm.pc + m.row.total) (fullLatches s.vm.ibuf s.vm.pc m)) with
      ⟨x, mem, e'⟩ | e' <;> rw [e'] at hturn <;> cases hturn
    · exact absurd (hrun.symm.trans hfault) (by decide)
    · exact ⟨_, _, _, rfl, rfl⟩
  · cases hturn
    refine ⟨c, p, l, ?_, rfl⟩
    rcases hc with rfl | rfl <;> rfl

/-- Settles O47: fault entry and the fetch before it touch neither registers nor memory. -/
theorem faultsArePrecise : Obligations.FaultsArePrecise := by
  intro s t hrun hstep hfault
  rw [step_of_run hrun] at hstep
  obtain ⟨c, p, l, hc, rfl⟩ := runTurn_enters_fault hrun hstep hfault
  exact ⟨rfl, rfl, rfl, c, rfl, hc⟩

theorem runResult_raiseRun (c : Condition) (n : Nat) (s : State) :
    runResult (raiseRun c (some n) s) = some (.fault c n) := rfl

/-- Settles O30: the fields of fault entry, and the record each host reads back. -/
theorem faultEntryRecordsTheCondition : Obligations.FaultEntryRecordsTheCondition := fun s c n =>
  ⟨rfl, runResult_raiseRun c n s, asmResult_raiseAsm c n, rfl⟩

/-- Settles O50: outside a run the step takes the oldest call. -/
theorem betweenPassesOnlyAHostCallActs : Obligations.BetweenPassesOnlyAHostCallActs := by
  intro s hrun
  rw [step_of_not_run hrun]
  refine ⟨fun hnone => ?_, fun text rest htext => ?_, fun rs rest hrecords => ?_⟩
  · rw [takeCall, hnone]
  · rw [takeCall, htext]
  · rw [takeCall, hrecords]

end Sys2Proof.Machine

/-! ## Nothing reaches a running pass (70_reset_and_hazards.md R202, 10_state.md R17) -/

namespace Sys2Proof.Machine

/-- A turn of the run loop writes no calls, parameters, encoder, stream or range: each of its ends is an update of the
decoder/VM's working state (R17). -/
theorem runTurn_frame {s t : State} (h : runTurn s = .next t) :
    t.calls = s.calls ∧ t.params = s.params ∧ t.enc = s.enc ∧ t.vm.ibuf = s.vm.ibuf ∧
      t.vm.snapStart = s.vm.snapStart ∧ t.vm.snapEnd = s.vm.snapEnd := by
  rcases runTurn_cases s with ⟨-, e⟩ | ⟨-, m, i, -, -, -, -, e⟩ | ⟨-, l, p, c, -, -, -, -, e⟩ <;> rw [e] at h
  · cases h
    exact ⟨rfl, rfl, rfl, rfl, rfl, rfl⟩
  · rcases exec_sets_regs_mem_or_faults i (s.setFetch (s.vm.pc + m.row.total) (fullLatches s.vm.ibuf s.vm.pc m)) with
      ⟨x, mem, e'⟩ | e' <;> rw [e'] at h <;> cases h
    · exact ⟨rfl, rfl, rfl, rfl, rfl, rfl⟩
    · exact ⟨rfl, rfl, rfl, rfl, rfl, rfl⟩
  · cases h
    exact ⟨rfl, rfl, rfl, rfl, rfl, rfl⟩

/-- Settles O51: the same turn is taken beside any encoder and any waiting calls, and it has the frame above. -/
theorem nothingReachesARunningPass : Obligations.NothingReachesARunningPass := by
  intro s calls enc hrun
  obtain ⟨t, e, e'⟩ := runTurn_withHost s enc calls
  obtain ⟨hcalls, hparams, henc, hibuf, hstart, hend⟩ := runTurn_frame e
  have hrun' : (s.withHost enc calls).vm.vstate = .run := hrun
  exact ⟨t, (step_of_run hrun).trans e, hcalls, hparams, henc, hibuf, hstart, hend, (step_of_run hrun').trans e'⟩

end Sys2Proof.Machine

/-! ## Opcode-table words (95_test_vectors.md part 2 E, 30_encoding.md R54 to R57) -/

namespace Sys2Proof

theorem natOfBytes_lt (buf : List Byte) : natOfBytes buf < 2 ^ lenBits buf :=
  Nat.lt_pow_two_of_testBit _ fun k hk => by rw [testBit_natOfBytes, streamBit_of_lenBits_le buf k hk]

theorem natOfBytes_replicate_zero (k : Nat) : natOfBytes (List.replicate k 0) = 0 := by
  induction k with
  | zero => rfl
  | succ k ih =>
    rw [List.replicate_succ, natOfBytes, ih]
    rfl

/-- With more bytes asked for than a byte sequence has, the number it reads as gives it back, filled up with zero bytes. -/
theorem bytesOfNat_length_add_natOfBytes (buf : List Byte) (k : Nat) :
    bytesOfNat (buf.length + k) (natOfBytes buf) = buf ++ List.replicate k 0 := by
  have h := bytesOfNat_natOfBytes (buf ++ List.replicate k 0)
  rwa [natOfBytes_append, natOfBytes_replicate_zero, Nat.zero_mul, Nat.add_zero, List.length_append,
    List.length_replicate] at h

/-- The table word of an instruction's own bytes decodes to it: the word's bytes in stream order are the encoding, and
only zero bytes stand behind it. -/
theorem decodeTableWord_encode {i : Instr} (h : i.WellFormed) :
    decodeTableWord (lenBits (encode i)) (natOfBytes (encode i)) = some i := by
  have hroom : (encode i).length ≤ max 6 ((lenBits (encode i) + 7) / 8) := by
    unfold lenBits
    omega
  obtain ⟨k, hk⟩ := Nat.exists_eq_add_of_le hroom
  rw [decodeTableWord, hk, Nat.mod_eq_of_lt (natOfBytes_lt _), bytesOfNat_length_add_natOfBytes, decode_encode h]

/-- The integer of a row's format, at the row's width, decodes to the instruction it was formed from. -/
theorem decodeTableWord_formatWord {m : Mnemonic} {a b : Nat} (ha : a < 2 ^ m.row.width 0)
    (hb : b < 2 ^ m.row.width 1) : decodeTableWord m.row.total (formatWord m a b) = some (Instr.ofFields m a b) := by
  have h := decodeTableWord_encode ((Instr.ofFields_wellFormed m a b).mpr ⟨ha, hb⟩)
  rwa [lenBits_encode, Instr.ofFields_row, natOfBytes_encode ha hb] at h

/-- Settles O13: each of the four words is the integer of its instruction's format. -/
theorem specWordsDecode : Obligations.SpecWordsDecode := by
  have hload : formatWord .load 6 632 = 0x000009E30A := by decide
  have hread : formatWord .read 1 3 = 0x0180000000B6 := by decide
  have hwrite : formatWord .write 5 2 = 0x0AA7 := by decide
  have hpopcnt : formatWord .popcnt 3 5 = 0x000000001592 := by decide
  refine ⟨?_, ?_, ?_, ?_⟩
  · rw [← hload]
    exact decodeTableWord_formatWord (m := .load) (by decide) (by decide)
  · rw [← hread]
    exact decodeTableWord_formatWord (m := .read) (by decide) (by decide)
  · rw [← hwrite]
    exact decodeTableWord_formatWord (m := .write) (by decide) (by decide)
  · rw [← hpopcnt]
    exact decodeTableWord_formatWord (m := .popcnt) (by decide) (by decide)

end Sys2Proof
